-- ==== Sys2Proof/Word.lean ====
section
/-! DEFINITION. The sizes of the block's data: words, bytes, field registers, byte strings, register indices. -/

namespace Sys2Proof

/-- A 32-bit bus word, register word or command word (R30, R73, R100). -/
abbrev Word := BitVec 32

/-- One byte of the BYTES string (R37). -/
abbrev Byte := BitVec 8

/-- A field-element register image: ten 32-bit words `w[0..9]` (R30). -/
abbrev FReg := Vector Word 10

/-- A 32-byte string `B[0..31]` (R37). -/
abbrev ByteString := Vector Byte 32

/-- A register index; the command word gives it three bits, and every value names a register (R102). -/
abbrev RegIdx := Fin 8

/-- A byte offset into the 0x400-byte register window (R70): the window has exactly `2 ^ 10` bytes. -/
abbrev Offset := BitVec 10

end Sys2Proof
end

