-- ==== Sys2Proof/Syntax.lean ====
section
/-! DEFINITION. What the block is given: its fourteen commands (one constructor per row of the opcode
table), the host's bus accesses, and the events that reach the block one at a time. -/

namespace Sys2Proof

/-- The limb layout a command uses, its P bit (R101, R102). -/
inductive Path where
  | limb32   -- P = 0: ten signed limbs of 26 and 25 bits
  | limb64   -- P = 1: five unsigned limbs of 51 bits
  deriving DecidableEq, Repr

/-- The eight opcodes of R103. -/
inductive Op where
  | nop | mul | sqr | mul121666 | inv | frombytes | tobytes | wipe
  deriving DecidableEq, Repr

/-- The commands, one constructor per row of the opcode table (R103, R106). -/
inductive Instr where
  /-- `nop` (R190). -/
  | nop
  /-- `mul.32 fd, fa, fb` (R150). -/
  | mul32 (rd rs1 rs2 : RegIdx)
  /-- `mul.64 fd, fa, fb` (R150). -/
  | mul64 (rd rs1 rs2 : RegIdx)
  /-- `sqr.32 fd, fa` (R151). -/
  | sqr32 (rd rs1 : RegIdx)
  /-- `sqr.64 fd, fa` (R151). -/
  | sqr64 (rd rs1 : RegIdx)
  /-- `mul121666.32 fd, fa` (R152). -/
  | mul121666x32 (rd rs1 : RegIdx)
  /-- `mul121666.64 fd, fa` (R152). -/
  | mul121666x64 (rd rs1 : RegIdx)
  /-- `inv.32 fd, fa` (R180). -/
  | inv32 (rd rs1 : RegIdx)
  /-- `inv.64 fd, fa` (R180). -/
  | inv64 (rd rs1 : RegIdx)
  /-- `frombytes.32 fd` (R130). -/
  | frombytes32 (rd : RegIdx)
  /-- `frombytes.64 fd` (R130). -/
  | frombytes64 (rd : RegIdx)
  /-- `tobytes.32 fa` (R131). -/
  | tobytes32 (rs1 : RegIdx)
  /-- `tobytes.64 fa` (R131). -/
  | tobytes64 (rs1 : RegIdx)
  /-- `wipe` (R191). -/
  | wipe
  deriving DecidableEq, Repr

/-- The widths a host access may try; only `word` is legal (R73). -/
inductive Width where
  | byte | half | word | double | burst
  deriving DecidableEq, Repr

/-- One host bus access to the window (R12, R73). The data of a write is the 32 bits a legal access carries. -/
inductive Access where
  | read (off : Offset) (width : Width)
  | write (off : Offset) (width : Width) (data : Word)
  deriving DecidableEq, Repr

/-- What can happen to the block, one event at a time (R79, R108, R240). -/
inductive Event where
  /-- The host's step: one bus access. -/
  | access (a : Access)
  /-- The engine's step: the completion of the in-flight command, if there is one. -/
  | complete
  /-- The reset input takes this level (`true`: asserted). -/
  | rst (asserted : Bool)
  deriving DecidableEq, Repr

end Sys2Proof
end

