-- ==== Sys2Proof/Config.lean ====
section
/-! DEFINITION. The block's parameters (R9): the fixed ones as numbers, the ones the spec leaves OPEN as
constants without a body, of which nothing can be proved but their type. -/

namespace Sys2Proof.Config

/-- The field prime `p = 2^255 - 19` (R1, R9). -/
def p : Nat := 2 ^ 255 - 19

/-- The exponent of INV, `2^255 - 21`, which is `p - 2` (R180). -/
def invExponent : Nat := 2 ^ 255 - 21

/-- `A24`, the constant of MUL121666 (R9, R152). -/
def a24 : Nat := 121666

/-- `ADM32`: a LIMB32 operand limb lies strictly between `-2^27` and `2^27` (R9, R35). -/
def adm32 : Nat := 2 ^ 27

/-- `ADM64`: a LIMB64 operand limb is below `2^54` (R9, R35). -/
def adm64 : Nat := 2 ^ 54

/-- The value of the ID register (R9, R38). -/
def idValue : Word := 0x25510100#32

/-- `WINDOW`: the bytes of the register window (R9, R70). -/
def window : Nat := 0x400

/-- OPEN: which multiple of the window size the window starts at (R9, R70). -/
opaque windowIndex : Nat

/-- `MM_BASE`: the host address of the window, a multiple of 0x400 (R9, R70). -/
def mmBase : Nat := window * windowIndex

/-- OPEN: one less than the latency of a command, per opcode and path (R9, R249). -/
opaque latencyBeforeLast : Op → Path → Nat

/-- `LAT(op, P)`: a positive number of cycles, of the opcode and the path alone (R249, R250). No rule reads it. -/
def lat (op : Op) (path : Path) : Nat := latencyBeforeLast op path + 1

/-- `IRQ_LINE`, OPEN: which host interrupt input `irq` drives (R9, R206). -/
opaque irqLine : Nat

/-- `BUS_ERR_SIGNAL`, OPEN: how the host bus reports an error response (R9, R73). -/
opaque busErrSignal : Nat

end Sys2Proof.Config
end

