-- ==== Sys2Proof/WellFormed.lean ====
section
/-! DEFINITION. The checks on what the block is given: which 32-bit words are commands (the opcode table's match
and mask, R103, R104), and which bus accesses are legal (R73). An `Instr` needs no check of its own: its register
fields are `Fin 8`, and every value 0..7 is a register (R102). -/

namespace Sys2Proof

/-- A row of the match and mask table of R103. -/
structure Form where
  mnemonic : String
  pattern  : Word
  mask     : Word
  deriving DecidableEq, Repr

/-- Match and mask of every legal form, as R103 and opcode_table.json list them. -/
def forms : List Form :=
  [⟨"nop",          0x00000000#32, 0xFFFFFFFF#32⟩,
   ⟨"mul.32",       0x00000001#32, 0xFFF888FF#32⟩,
   ⟨"mul.64",       0x00000011#32, 0xFFF888FF#32⟩,
   ⟨"sqr.32",       0x00000002#32, 0xFFFF88FF#32⟩,
   ⟨"sqr.64",       0x00000012#32, 0xFFFF88FF#32⟩,
   ⟨"mul121666.32", 0x00000003#32, 0xFFFF88FF#32⟩,
   ⟨"mul121666.64", 0x00000013#32, 0xFFFF88FF#32⟩,
   ⟨"inv.32",       0x00000004#32, 0xFFFF88FF#32⟩,
   ⟨"inv.64",       0x00000014#32, 0xFFFF88FF#32⟩,
   ⟨"frombytes.32", 0x00000005#32, 0xFFFFF8FF#32⟩,
   ⟨"frombytes.64", 0x00000015#32, 0xFFFFF8FF#32⟩,
   ⟨"tobytes.32",   0x00000006#32, 0xFFFF8FFF#32⟩,
   ⟨"tobytes.64",   0x00000016#32, 0xFFFF8FFF#32⟩,
   ⟨"wipe",         0x00000007#32, 0xFFFFFFFF#32⟩]

/-- A word encodes a form exactly when its masked bits are the form's (R103). -/
def Form.encodes (f : Form) (c : Word) : Bool := c &&& f.mask == f.pattern

/-- A command word is legal exactly when it matches a row of the table (R104). -/
def legalWord (c : Word) : Bool := forms.any (·.encodes c)

/-- The offset an access is at. -/
def Access.off : Access → Offset
  | .read off _ => off
  | .write off _ _ => off

/-- The width of an access. -/
def Access.width : Access → Width
  | .read _ width => width
  | .write _ width _ => width

/-- An access is legal when it is 32 bits wide (R73). -/
def Access.wordWide (a : Access) : Bool := a.width == .word

/-- An access is aligned when its offset is a multiple of 4 (R73). -/
def Access.aligned (a : Access) : Bool := a.off.toNat % 4 == 0

/-- Both conditions of R73. -/
def Access.wellFormed (a : Access) : Bool := a.wordWide && a.aligned

end Sys2Proof
end

