-- ==== Sys2Proof/Decode.lean ====
section
/-! DEFINITION. Decoding a command word (R105), rejecting by name what is illegal (R104), and the encoder
written from the same field table (R101, R106). -/

namespace Sys2Proof

/-- Why a word is no command (R104). Each of these makes `Issue` raise ILLEGAL_CMD. -/
inductive Illegal where
  /-- A bit of RSV0, RSV1, RSV2 or RSV3 is 1. -/
  | reservedBits
  /-- The opcode is 0x8 to 0xF. -/
  | reservedOpcode
  /-- A field the opcode does not use is not 0, or P = 1 on NOP or WIPE. -/
  | mustBeZero
  /-- Not four bytes: no command word at all (R100). -/
  | notOneWord
  deriving DecidableEq, Repr

/-! ### The fields of R101 -/

/-- OPC, bits 3:0. -/
def opcField (c : Word) : BitVec 4 := c.extractLsb' 0 4
/-- P, bit 4. -/
def pField (c : Word) : BitVec 1 := c.extractLsb' 4 1
/-- RSV0, bits 7:5. -/
def rsv0Field (c : Word) : BitVec 3 := c.extractLsb' 5 3
/-- RD, bits 10:8. -/
def rdField (c : Word) : BitVec 3 := c.extractLsb' 8 3
/-- RSV1, bit 11. -/
def rsv1Field (c : Word) : BitVec 1 := c.extractLsb' 11 1
/-- RS1, bits 14:12. -/
def rs1Field (c : Word) : BitVec 3 := c.extractLsb' 12 3
/-- RSV2, bit 15. -/
def rsv2Field (c : Word) : BitVec 1 := c.extractLsb' 15 1
/-- RS2, bits 18:16. -/
def rs2Field (c : Word) : BitVec 3 := c.extractLsb' 16 3
/-- RSV3, bits 31:19. -/
def rsv3Field (c : Word) : BitVec 13 := c.extractLsb' 19 13

/-- The register a 3-bit field names (R102). -/
def regOfField (b : BitVec 3) : RegIdx := b.toFin

/-- `Decode(c)` of R105: the reserved bits first, then the opcode, then its must-be-zero fields. -/
def decode (c : Word) : Except Illegal Instr :=
  let rd := regOfField (rdField c)
  let rs1 := regOfField (rs1Field c)
  let rs2 := regOfField (rs2Field c)
  let wide : Bool := pField c == 1#1
  if rsv0Field c ≠ 0#3 ∨ rsv1Field c ≠ 0#1 ∨ rsv2Field c ≠ 0#1 ∨ rsv3Field c ≠ 0#13 then .error .reservedBits
  else match (opcField c).toNat with
    | 0 => if pField c = 0#1 ∧ rdField c = 0#3 ∧ rs1Field c = 0#3 ∧ rs2Field c = 0#3 then .ok .nop
           else .error .mustBeZero
    | 1 => .ok (if wide then .mul64 rd rs1 rs2 else .mul32 rd rs1 rs2)
    | 2 => if rs2Field c = 0#3 then .ok (if wide then .sqr64 rd rs1 else .sqr32 rd rs1) else .error .mustBeZero
    | 3 => if rs2Field c = 0#3 then .ok (if wide then .mul121666x64 rd rs1 else .mul121666x32 rd rs1)
           else .error .mustBeZero
    | 4 => if rs2Field c = 0#3 then .ok (if wide then .inv64 rd rs1 else .inv32 rd rs1) else .error .mustBeZero
    | 5 => if rs1Field c = 0#3 ∧ rs2Field c = 0#3 then .ok (if wide then .frombytes64 rd else .frombytes32 rd)
           else .error .mustBeZero
    | 6 => if rdField c = 0#3 ∧ rs2Field c = 0#3 then .ok (if wide then .tobytes64 rs1 else .tobytes32 rs1)
           else .error .mustBeZero
    | 7 => if pField c = 0#1 ∧ rdField c = 0#3 ∧ rs1Field c = 0#3 ∧ rs2Field c = 0#3 then .ok .wipe
           else .error .mustBeZero
    | _ => .error .reservedOpcode

/-- The word four bus byte lanes carry, lane 0 first: little-endian (R74). -/
def wordOfLanes (b0 b1 b2 b3 : Byte) : Word := b3 ++ b2 ++ b1 ++ b0

/-- Byte lane `j` of a bus word (R74). -/
def laneOf (w : Word) (j : Fin 4) : Byte := w.extractLsb' (8 * j.val) 8

/-- Decoding the bytes of a command as the bus carries them: one word of four lanes, nothing shorter or longer
(R74, R100). -/
def decodeBytes : List Byte → Except Illegal Instr
  | [b0, b1, b2, b3] => decode (wordOfLanes b0 b1 b2 b3)
  | _ => .error .notOneWord

/-- The command an opcode-table word of `nbits` bits decodes to: the bits above `nbits` are 0, the word is laid
out in its four byte lanes and given to the decoder; a number that does not fit one word is no command (R100). -/
def decodeTableWord (nbits w : Nat) : Option Instr :=
  let v := w % 2 ^ nbits
  if v < 2 ^ 32 then
    let c := BitVec.ofNat 32 v
    (decodeBytes [laneOf c 0, laneOf c 1, laneOf c 2, laneOf c 3]).toOption
  else none

/-! ### What a decoded command holds -/

/-- The opcode of a command (R103). -/
def Instr.op : Instr → Op
  | .nop => .nop
  | .mul32 _ _ _ | .mul64 _ _ _ => .mul
  | .sqr32 _ _ | .sqr64 _ _ => .sqr
  | .mul121666x32 _ _ | .mul121666x64 _ _ => .mul121666
  | .inv32 _ _ | .inv64 _ _ => .inv
  | .frombytes32 _ | .frombytes64 _ => .frombytes
  | .tobytes32 _ | .tobytes64 _ => .tobytes
  | .wipe => .wipe

/-- The path of a command; NOP and WIPE have P = 0 (R103). -/
def Instr.path : Instr → Path
  | .nop | .wipe => .limb32
  | .mul32 _ _ _ | .sqr32 _ _ | .mul121666x32 _ _ | .inv32 _ _ | .frombytes32 _ | .tobytes32 _ => .limb32
  | .mul64 _ _ _ | .sqr64 _ _ | .mul121666x64 _ _ | .inv64 _ _ | .frombytes64 _ | .tobytes64 _ => .limb64

/-- RD of a command, 0 where the opcode has none (R103). -/
def Instr.rd : Instr → RegIdx
  | .mul32 rd _ _ | .mul64 rd _ _ | .sqr32 rd _ | .sqr64 rd _ | .mul121666x32 rd _ | .mul121666x64 rd _
  | .inv32 rd _ | .inv64 rd _ | .frombytes32 rd | .frombytes64 rd => rd
  | .nop | .wipe | .tobytes32 _ | .tobytes64 _ => 0

/-- RS1 of a command, 0 where the opcode has none (R103). -/
def Instr.rs1 : Instr → RegIdx
  | .mul32 _ a _ | .mul64 _ a _ | .sqr32 _ a | .sqr64 _ a | .mul121666x32 _ a | .mul121666x64 _ a
  | .inv32 _ a | .inv64 _ a | .tobytes32 a | .tobytes64 a => a
  | .nop | .wipe | .frombytes32 _ | .frombytes64 _ => 0

/-- RS2 of a command, 0 for all but MUL (R103). -/
def Instr.rs2 : Instr → RegIdx
  | .mul32 _ _ b | .mul64 _ _ b => b
  | .nop | .wipe | .sqr32 _ _ | .sqr64 _ _ | .mul121666x32 _ _ | .mul121666x64 _ _ | .inv32 _ _ | .inv64 _ _
  | .frombytes32 _ | .frombytes64 _ | .tobytes32 _ | .tobytes64 _ => 0

/-- The commands whose destination is F[rd] (R30). -/
def Instr.writesF (i : Instr) : Bool :=
  match i.op with
  | .mul | .sqr | .mul121666 | .inv | .frombytes => true
  | .nop | .tobytes | .wipe => false

/-- The mnemonic of a command, with its path suffix (R106). -/
def Instr.mnemonic : Instr → String
  | .nop => "nop"
  | .mul32 _ _ _ => "mul.32"
  | .mul64 _ _ _ => "mul.64"
  | .sqr32 _ _ => "sqr.32"
  | .sqr64 _ _ => "sqr.64"
  | .mul121666x32 _ _ => "mul121666.32"
  | .mul121666x64 _ _ => "mul121666.64"
  | .inv32 _ _ => "inv.32"
  | .inv64 _ _ => "inv.64"
  | .frombytes32 _ => "frombytes.32"
  | .frombytes64 _ => "frombytes.64"
  | .tobytes32 _ => "tobytes.32"
  | .tobytes64 _ => "tobytes.64"
  | .wipe => "wipe"

/-- The opcode numbers of R103. -/
def Op.code : Op → BitVec 4
  | .nop => 0x0#4
  | .mul => 0x1#4
  | .sqr => 0x2#4
  | .mul121666 => 0x3#4
  | .inv => 0x4#4
  | .frombytes => 0x5#4
  | .tobytes => 0x6#4
  | .wipe => 0x7#4

/-- P: 0 = LIMB32, 1 = LIMB64 (R101). -/
def Path.bit : Path → BitVec 1
  | .limb32 => 0#1
  | .limb64 => 1#1

/-- The 3-bit field of a register index. -/
def fieldOfReg (r : RegIdx) : BitVec 3 := BitVec.ofFin r

/-- The command word of a command, in the pattern of R101:
`0000000000000 bbb 0 aaa 0 ddd 000 P oooo`. -/
def encode (i : Instr) : Word :=
  0#13 ++ fieldOfReg i.rs2 ++ 0#1 ++ fieldOfReg i.rs1 ++ 0#1 ++ fieldOfReg i.rd ++ 0#3 ++ i.path.bit ++ i.op.code

end Sys2Proof
end

