-- ==== Sys2Proof/Machine/State.lean ====
section
/-! DEFINITION. Everything the block remembers (R45), the inputs and outputs that stand beside it as data, the
reasons a step can stop, and the state after reset (R46). -/

namespace Sys2Proof.Machine

/-- Why a step stops with a fault. -/
inductive Fault where
  /-- A host access that is not 32 bits wide or not aligned (R73), raised by the bus side of the step (`Bus.lean`).
  The block's state does not change, and the data lanes of the refused read carry `readData`, which is 0. The spec
  asks a model to make such an access a fault of the host's step (93_implementation_defined.md section 2, D16).
  Safe: the block itself goes on where this run stops. -/
  | busError (readData : Word)
  deriving DecidableEq, Repr

/-- Why a step is refused. -/
inductive Refusal where
  /-- An instruction `exec` has no meaning for; raised by `exec` alone. Safe. No arm of this model uses it. -/
  | notModelled (mnemonic : String)
  /-- A host access while `rst` is asserted: the block answers none (R240), and the spec asks a model to refuse it
  (93_implementation_defined.md section 2, D41). Raised by the bus side of the step. Safe. -/
  | accessDuringReset
  deriving DecidableEq, Repr

/-- The four block errors that have a code (R200). -/
inductive Err where
  | illegalCmd | cmdWhileBusy | operandRange | writeWhileBusy
  deriving DecidableEq, Repr

/-- The operands captured at issue: A and B are register images, X a byte string (R42). -/
structure Captured where
  a : FReg
  b : FReg
  x : ByteString
  deriving DecidableEq, Repr

/-- The in-flight record (R42). `cmd` is the decoded command, which is {op, P, rd, rs1, rs2}: `cmd.op`, `cmd.path`,
`cmd.rd`, `cmd.rs1` and `cmd.rs2` give the fields, 0 where the opcode does not use one (log entry 9). -/
structure InFlight where
  cmd : Instr
  ops : Captured
  deriving DecidableEq, Repr

/-- The two agents that act on the block (R108). -/
inductive Agent where
  | host | engine
  deriving DecidableEq, Repr

/-- What the bus gave the host back for its last access (R85). -/
inductive BusResp where
  /-- No access has been answered yet. -/
  | none
  /-- A write was taken. -/
  | ack
  /-- A read returned this word. -/
  | data (w : Word)
  deriving DecidableEq, Repr

/-- The state. The first eight fields are the whole architectural state (R45); the last four are the block's inputs
and outputs and whose step it is (log entries 1, 2 and 4). -/
structure State where
  /-- F0..F7 (R30). -/
  f : Vector FReg 8
  /-- BYTES, as B[0..31] (R37). -/
  bytes : ByteString
  /-- CTRL.IRQ_EN (R39). -/
  irqEn : Bool
  /-- STATUS.DONE (R40). -/
  done : Bool
  /-- STATUS.ERR (R40). -/
  err : Bool
  /-- STATUS.ERRCODE (R40, R200). -/
  errCode : BitVec 4
  /-- LASTCMD (R41). -/
  lastCmd : Word
  /-- INFLIGHT (R42). -/
  inflight : Option InFlight
  /-- The level of the reset input, `true` while asserted (R240). -/
  rst : Bool
  /-- Whose step is under way (R108); the step sets it before it runs a command. -/
  turn : Agent
  /-- What the last host access returned (R85). -/
  resp : BusResp
  /-- The events still to come, oldest first (R79, R108). -/
  schedule : List Event
  deriving DecidableEq, Repr

/-- Ten zero words. -/
def zeroReg : FReg := Vector.replicate 10 0#32

/-- 32 zero bytes. -/
def zeroBytes : ByteString := Vector.replicate 32 0#8

/-- The reset state (R46): every register and BYTES 0, IRQ_EN, DONE, ERR and ERRCODE 0, LASTCMD 0, INFLIGHT None.
The model's own fields: `rst` released, no event pending, nothing answered yet, the host to move (log entry 2). -/
def State.reset : State where
  f := Vector.replicate 8 zeroReg
  bytes := zeroBytes
  irqEn := false
  done := false
  err := false
  errCode := 0#4
  lastCmd := 0x00000000#32
  inflight := none
  rst := false
  turn := .host
  resp := .none
  schedule := []

end Sys2Proof.Machine
end

