-- ==== Sys2Proof/Machine/Operands.lean ====
section
/-! DEFINITION. Operand forms: the two limb layouts with their values, limb forms and admissibility (R31 to R35),
the byte string of BYTES (R37, R74), and the operands each command captures at issue (R109, R110). -/

namespace Sys2Proof.Machine

/-- `v[lo + n - 1 : lo]`, which is `(v >> lo) mod 2^n` (R10). -/
def slice (v lo n : Nat) : Nat := v / 2 ^ lo % 2 ^ n

/-! ### LIMB32: ten signed limbs, 26 and 25 bits wide by turns (R31) -/

/-- `pos32(i) = 26 * ceil(i/2) + 25 * floor(i/2)` (R31). -/
def pos32 (i : Nat) : Nat := 26 * ((i + 1) / 2) + 25 * (i / 2)

/-- `width32(i)`: 26 for even `i`, 25 for odd `i` (R34). -/
def width32 (i : Nat) : Nat := if i % 2 = 0 then 26 else 25

/-- Limb `i` of a register under LIMB32: word `i` as two's complement (R31). -/
def limb32 (w : FReg) (i : Fin 10) : Int := w[i].toInt

/-- `val32(W)` (R31). -/
def val32 (w : FReg) : Int := ∑ i : Fin 10, limb32 w i * ((2 ^ pos32 i.val : Nat) : Int)

/-- `radix32(v)` (R34). -/
def radix32 (v : Nat) : FReg := Vector.ofFn fun i => BitVec.ofNat 32 (slice v (pos32 i.val) (width32 i.val))

/-- `adm32(W)`: every limb strictly between -2^27 and 2^27 (R35). -/
def adm32 (w : FReg) : Bool :=
  decide (∀ i : Fin 10, -(Config.adm32 : Int) < limb32 w i ∧ limb32 w i < (Config.adm32 : Int))

/-! ### LIMB64: five unsigned limbs of 51 bits, low word first (R32) -/

/-- Limb `i` of a register under LIMB64: `{w[2i+1], w[2i]}` (R32). -/
def limb64 (w : FReg) (i : Fin 5) : Nat :=
  (w[2 * i.val + 1]'(by omega) ++ w[2 * i.val]'(by omega)).toNat

/-- `val64(W)` (R32). -/
def val64 (w : FReg) : Nat := ∑ i : Fin 5, limb64 w i * 2 ^ (51 * i.val)

/-- `radix64(v)`: word `k` is the low or high half of limb `k / 2` (R34). -/
def radix64 (v : Nat) : FReg :=
  Vector.ofFn fun k => BitVec.ofNat 32 (slice (slice v (51 * (k.val / 2)) 51) (32 * (k.val % 2)) 32)

/-- `adm64(W)`: every limb below 2^54 (R35). -/
def adm64 (w : FReg) : Bool := decide (∀ i : Fin 5, limb64 w i < Config.adm64)

/-! ### The path alone picks the view (R33, R102) -/

/-- `valP(W)` (R12). -/
def val (path : Path) (w : FReg) : Int :=
  match path with
  | .limb32 => val32 w
  | .limb64 => (val64 w : Int)

/-- `admP(W)` (R35). -/
def adm (path : Path) (w : FReg) : Bool :=
  match path with
  | .limb32 => adm32 w
  | .limb64 => adm64 w

/-- `radixP(v)` (R34). -/
def radix (path : Path) (v : Nat) : FReg :=
  match path with
  | .limb32 => radix32 v
  | .limb64 => radix64 v

/-- `x mod p`: the residue in `[0, p)` of any integer (R11). -/
def residue (x : Int) : Nat := (x % (Config.p : Int)).toNat

/-- `canonP(x) = radixP(x mod p)` (R34). -/
def canon (path : Path) (x : Int) : FReg := radix path (residue x)

/-- `b ^ e` reduced modulo p, for an exponent of `n` bits, by squaring and multiplying. The spec fixes the value
alone (R182); `Laws/Operands.lean` proves that this is the residue of `b ^ e` (log entry 12). -/
def powMod (b : Nat) : (n : Nat) → (e : Nat) → Nat
  | 0, _ => 1
  | n + 1, e => powMod b n (e / 2) ^ 2 * b ^ (e % 2) % Config.p

/-! ### Byte strings (R37, R74) -/

/-- `int(B)`, little-endian (R37). -/
def intOfBytes (b : ByteString) : Nat := ∑ k : Fin 32, b[k].toNat * 2 ^ (8 * k.val)

/-- The 32 bytes of an integer, `B[k] = r[8k+7 : 8k]` (R131). -/
def bytesOfInt (r : Nat) : ByteString := Vector.ofFn fun k => BitVec.ofNat 8 (slice r (8 * k.val) 8)

/-- `BW[m]`: byte `B[4m+j]` is byte lane `j` (R37, R74). -/
def bytesWord (b : ByteString) (m : Fin 8) : Word :=
  wordOfLanes (b[4 * m.val]'(by omega)) (b[4 * m.val + 1]'(by omega)) (b[4 * m.val + 2]'(by omega))
    (b[4 * m.val + 3]'(by omega))

/-- BYTES with the word `BW[m]` replaced (R74). -/
def setBytesWord (b : ByteString) (m : Fin 8) (v : Word) : ByteString :=
  Vector.ofFn fun k => if k.val / 4 = m.val then laneOf v ⟨k.val % 4, by omega⟩ else b[k]

/-- `F[n]` as its ten words (R12, R30). -/
def State.getF (s : State) (n : RegIdx) : FReg := s.f[n]

/-! ### What a command captures at issue (R109, R110) -/

/-- Nothing: A, B and X hold 0 (R42, R110). -/
def Captured.zero : Captured := ⟨zeroReg, zeroReg, zeroBytes⟩

/-- NOP and WIPE read nothing (R109). -/
def captureNothing (_ : State) : Except Err Captured := .ok Captured.zero

/-- SQR, MUL121666, INV and TOBYTES read F[rs1] and test it (R109, R110). -/
def captureOne (path : Path) (rs1 : RegIdx) (s : State) : Except Err Captured :=
  if adm path (s.getF rs1) then .ok { Captured.zero with a := s.getF rs1 } else .error .operandRange

/-- MUL reads and tests F[rs1], then F[rs2] (R109, R110, R204). -/
def captureTwo (path : Path) (rs1 rs2 : RegIdx) (s : State) : Except Err Captured :=
  match captureOne path rs1 s with
  | .error e => .error e
  | .ok c => if adm path (s.getF rs2) then .ok { c with b := s.getF rs2 } else .error .operandRange

/-- FROMBYTES reads BYTES, with no test (R109, R130). -/
def captureBytes (s : State) : Except Err Captured := .ok { Captured.zero with x := s.bytes }

end Sys2Proof.Machine
end

