-- ==== Sys2Proof/Machine/Flags.lean ====
section
/-! DEFINITION. The status and control bits: what STATUS and CTRL read as, what a write to them does, BUSY, and the
interrupt output (R39, R40, R43, R206). -/

namespace Sys2Proof.Machine

/-- STATUS.BUSY: 1 exactly when INFLIGHT is not None (R40, R42). -/
def State.busy (s : State) : Bool := s.inflight.isSome

/-- The code of an error in STATUS.ERRCODE (R200). -/
def Err.code : Err → BitVec 4
  | .illegalCmd => 1#4
  | .cmdWhileBusy => 2#4
  | .operandRange => 3#4
  | .writeWhileBusy => 4#4

/-- What STATUS reads as: `{ERRCODE, 5'b0, ERR, DONE, BUSY}`, zero-extended (R40, R85). -/
def statusWord (s : State) : Word :=
  0#20 ++ s.errCode ++ 0#5 ++ BitVec.ofBool s.err ++ BitVec.ofBool s.done ++ BitVec.ofBool s.busy

/-- What CTRL reads as: `{30'b0, IRQ_EN, 1'b0}` (R39, R85). -/
def ctrlWord (s : State) : Word := 0#30 ++ BitVec.ofBool s.irqEn ++ 0#1

/-- A STATUS write: bit 1 clears DONE, bit 2 clears ERR and ERRCODE, the other bits are ignored (R40). -/
def writeStatus (v : Word) (s : State) : State :=
  { s with
    done := s.done && !v.getLsbD 1
    err := s.err && !v.getLsbD 2
    errCode := if v.getLsbD 2 then 0#4 else s.errCode }

/-- The level of the interrupt output (R43, R206). -/
def State.irq (s : State) : Bool := s.irqEn && (s.done || s.err)

/-- The level the block drives on a host interrupt input: `irq` on the line it is routed to, nothing on another
(R206). -/
def State.irqOn (s : State) (line : Nat) : Bool := line == Config.irqLine && s.irq

end Sys2Proof.Machine
end

