-- ==== Sys2Proof/Machine/Ops.lean ====
section
/-! DEFINITION. The named operations on the state: register writes, reporting an error (the block's only exception
mechanism, R202, R207; there is no return from one, R208), both resets (R240, R241), and the two procedures every
command goes through, issue (R110) and completion (R111). -/

namespace Sys2Proof.Machine

/-- `F[n] <- W`: all ten words at once (R12). -/
def State.setF (s : State) (n : RegIdx) (w : FReg) : State := { s with f := s.f.set n w }

/-- `F[n].w[k] <- v` (R77). -/
def State.setFWord (s : State) (n : RegIdx) (k : Fin 10) (v : Word) : State := s.setF n ((s.getF n).set k v)

/-- BYTES takes a new string. -/
def State.setBytes (s : State) (b : ByteString) : State := { s with bytes := b }

/-- `raise Err(code)`: with ERR = 0 it sets ERR and the code, with ERR = 1 it changes nothing; the first code stays,
and nothing else changes (R202, R207). -/
def raiseErr (e : Err) (s : State) : State :=
  if s.err then s else { s with err := true, errCode := e.code }

/-- `SoftReset()`: the architectural state becomes the reset state; what has still to happen, and what the bus
answered, are no part of it (R241). -/
def softReset (s : State) : State :=
  { State.reset with rst := s.rst, turn := s.turn, resp := s.resp, schedule := s.schedule }

/-- The reset input takes a level. Asserting it abandons the in-flight command; releasing it leaves the reset state
(R240). What the registers hold while it is asserted cannot be read (log entry 4). -/
def resetInput (asserted : Bool) (s : State) : State :=
  if asserted then { s with rst := true, inflight := none }
  else if s.rst then { softReset s with rst := false } else s

/-! ### Issue (R110) -/

/-- The command is accepted: it is in flight with its captured operands, and LASTCMD is its word (R110). -/
def accept (i : Instr) (c : Captured) (s : State) : State :=
  { s with inflight := some ⟨i, c⟩, lastCmd := encode i }

/-- `Issue(c)` for a legal word: busy first, then the operands in order; a rejected command has no effect but its
error (R110, R204). -/
def issue (i : Instr) (capture : State → Except Err Captured) (s : State) : State :=
  if s.busy then raiseErr .cmdWhileBusy s
  else match capture s with
    | .error e => raiseErr e s
    | .ok c => accept i c s

/-- `Issue(c)` for a word that is not legal: busy first, then ILLEGAL_CMD (R104, R110, R204). -/
def issueIllegal (s : State) : State :=
  if s.busy then raiseErr .cmdWhileBusy s else raiseErr .illegalCmd s

/-! ### Completion (R111) -/

/-- The command leaves the engine: INFLIGHT is None and DONE is set (R111). -/
def retire (s : State) : State := { s with inflight := none, done := true }

/-- `Complete()` for the command `i`: `Perform` on the record, then retire. With `i` not in flight the step is not
enabled and nothing happens (R111). -/
def complete (i : Instr) (perform : Captured → State → State) (s : State) : State :=
  match s.inflight with
  | none => s
  | some r => if r.cmd = i then retire (perform r.ops s) else s

/-- A command's meaning has the two actions of R110 and R111; whose step is under way picks the one (log entry 10). -/
def command (i : Instr) (capture : State → Except Err Captured) (perform : Captured → State → State)
    (s : State) : Host.Outcome State Fault Refusal :=
  match s.turn with
  | .host => .next (issue i capture s)
  | .engine => .next (complete i perform s)

end Sys2Proof.Machine
end

