-- ==== Sys2Proof/Machine/Bus.lean ====
section
/-! DEFINITION. The register window (R70 to R78, R85) and the one place where it is decided what the next step does:
answer a bus access, run a command, take the engine's turn, or follow the reset input (R79, R108, R240). -/

namespace Sys2Proof.Machine

/-- Where a host address falls in the window: `off = a - MM_BASE` for `MM_BASE ≤ a < MM_BASE + 0x400`, nothing
outside (R70). -/
def windowOffset (a : Nat) : Option Offset :=
  if Config.mmBase ≤ a ∧ a < Config.mmBase + Config.window then some (BitVec.ofNat 10 (a - Config.mmBase)) else none

/-- What stands at an offset (R71). -/
inductive Loc where
  | id | ctrl | status | cmd
  | bw (m : Fin 8)
  | fw (n : RegIdx) (k : Fin 10)
  | reserved
  deriving DecidableEq, Repr

/-- The register map (R71). Only offsets that are a multiple of 4 are ever looked up (R73). -/
def locate (off : Offset) : Loc :=
  let o := off.toNat
  if o = 0x000 then .id
  else if o = 0x004 then .ctrl
  else if o = 0x008 then .status
  else if o = 0x00C then .cmd
  else if 0x020 ≤ o ∧ o < 0x040 then .bw (Fin.ofNat 8 ((o - 0x020) / 4))
  else if 0x100 ≤ o ∧ o < 0x300 then
    if (o - 0x100) % 0x40 < 0x28 then .fw (Fin.ofNat 8 ((o - 0x100) / 0x40)) (Fin.ofNat 10 ((o - 0x100) % 0x40 / 4))
    else .reserved
  else .reserved

/-- The offset of `F[n].w[k]` (R71). -/
def fwOffset (n : RegIdx) (k : Fin 10) : Offset := BitVec.ofNat 10 (0x100 + 0x40 * n.val + 4 * k.val)

/-- The offset of `BW[m]` (R71). -/
def bwOffset (m : Fin 8) : Offset := BitVec.ofNat 10 (0x020 + 4 * m.val)

/-- `MemRead(off, 4)` (R85). No read has a side effect (R77). -/
def memRead (off : Offset) (s : State) : Word :=
  match locate off with
  | .id => Config.idValue
  | .ctrl => ctrlWord s
  | .status => statusWord s
  | .cmd => s.lastCmd
  | .bw m => bytesWord s.bytes m
  | .fw n k => (s.getF n)[k]
  | .reserved => 0x00000000#32

/-- A CTRL write: bit 0 = 1 is the soft reset, else IRQ_EN takes bit 1 (R39). -/
def writeCtrl (v : Word) (s : State) : State :=
  if v.getLsbD 0 then softReset s else { s with irqEn := v.getLsbD 1 }

/-- A write to an operand word: dropped with WRITE_WHILE_BUSY while a command is in flight (R78). -/
def writeOperand (store : State → State) (s : State) : State :=
  if s.busy then raiseErr .writeWhileBusy s else store s

/-- `MemWrite(off, 4, v)` at every location but CMD (R85): ID and the reserved offsets ignore it (R38, R72). -/
def memWrite (loc : Loc) (v : Word) (s : State) : State :=
  match loc with
  | .ctrl => writeCtrl v s
  | .status => writeStatus v s
  | .bw m => writeOperand (fun s => s.setBytes (setBytesWord s.bytes m v)) s
  | .fw n k => writeOperand (fun s => s.setFWord n k v) s
  | .id | .cmd | .reserved => s

/-- What a step comes to. -/
inductive Action where
  /-- A command has its step (issue or completion, as `turn` says). -/
  | run (i : Instr) (s : State)
  /-- The step is done, without a command. -/
  | go (s : State)
  | fault (r : Fault)
  | refuse (r : Refusal)
  deriving DecidableEq, Repr

/-- A CMD write: a legal word has its command's issue, any other is rejected (R41, R110). -/
def writeCmd (c : Word) (s : State) : Action :=
  match decode c with
  | .ok i => .run i s
  | .error _ => .go (issueIllegal s)

/-- A host access (R73, R85). The bus gets its answer, and what the access does is done, in this one step (R76, R79). -/
def hostAccess (a : Access) (s : State) : Action :=
  if a.wellFormed then
    match a with
    | .read off _ => .go { s with resp := .data (memRead off s) }
    | .write off _ v =>
      let s := { s with resp := .ack }
      match locate off with
      | .cmd => writeCmd v s
      | loc => .go (memWrite loc v s)
  else .fault (.busError 0x00000000#32)

/-- The engine's turn: the in-flight command completes; with none, or under reset, nothing happens (R111, R240). -/
def engineTurn (s : State) : Action :=
  match s.inflight with
  | some r => if s.rst then .go s else .run r.cmd { s with turn := .engine }
  | none => .go s

/-- What the next step does: the oldest event of the schedule; with none left it is the engine's turn (R108, R112,
log entry 1). -/
def nextAction (s : State) : Action :=
  match s.schedule with
  | [] => engineTurn s
  | .access a :: rest =>
    if s.rst then .refuse .accessDuringReset else hostAccess a { s with schedule := rest, turn := .host }
  | .complete :: rest => engineTurn { s with schedule := rest }
  | .rst level :: rest => .go (resetInput level { s with schedule := rest })

/-- A host access at an address, at the end of the schedule; outside the window it does not reach the block (R70). -/
def State.present (s : State) (a : Nat) (access : Offset → Access) : State :=
  match windowOffset a with
  | some off => { s with schedule := s.schedule ++ [.access (access off)] }
  | none => s

/-- The event of a host write of `v` to CMD. -/
def cmdWriteEvent (v : Word) : Event := .access (.write 0x00C#10 .word v)

/-- A state in which the next event is a host write to CMD of the opcode-table word `w` of `nbits` bits, with the reset
input released (log entry 11). -/
def fetchWord (s : State) (nbits w : Nat) : State :=
  { s with rst := false, schedule := cmdWriteEvent (BitVec.ofNat 32 (w % 2 ^ nbits)) :: s.schedule }

end Sys2Proof.Machine
end

