-- ==== Sys2Proof/Machine/Control.lean ====
section
/-! DEFINITION. NOP and WIPE (43_control.md). -/

namespace Sys2Proof.Machine

/-- The `Complete` block of NOP writes no state (R190). -/
def performNop (_ : Captured) (s : State) : State := s

/-- The `Complete` block of WIPE: every register and BYTES become 0 (R191). -/
def performWipe (_ : Captured) (s : State) : State :=
  { s with f := Vector.replicate 8 zeroReg, bytes := zeroBytes }

/-- `nop` (R190). -/
def execNop (s : State) : Host.Outcome State Fault Refusal :=
  command .nop captureNothing performNop s

/-- `wipe` (R191). -/
def execWipe (s : State) : Host.Outcome State Fault Refusal :=
  command .wipe captureNothing performWipe s

end Sys2Proof.Machine
end

