-- ==== Sys2Proof/Machine/Conversion.lean ====
section
/-! DEFINITION. FROMBYTES and TOBYTES on both paths (40_conversion.md). -/

namespace Sys2Proof.Machine

/-- The `Complete` block of FROMBYTES: bit 255 of the string is dropped, and nothing is reduced mod p (R130). -/
def performFromBytes (path : Path) (rd : RegIdx) (c : Captured) (s : State) : State :=
  s.setF rd (radix path (intOfBytes c.x % 2 ^ 255))

/-- The `Complete` block of TOBYTES: the canonical residue, little-endian (R131). -/
def performToBytes (path : Path) (c : Captured) (s : State) : State :=
  s.setBytes (bytesOfInt (residue (val path c.a)))

/-- `frombytes.32 fd` (R130). -/
def execFromBytes32 (rd : RegIdx) (s : State) : Host.Outcome State Fault Refusal :=
  command (.frombytes32 rd) captureBytes (performFromBytes .limb32 rd) s

/-- `frombytes.64 fd` (R130). -/
def execFromBytes64 (rd : RegIdx) (s : State) : Host.Outcome State Fault Refusal :=
  command (.frombytes64 rd) captureBytes (performFromBytes .limb64 rd) s

/-- `tobytes.32 fa` (R131). -/
def execToBytes32 (rs1 : RegIdx) (s : State) : Host.Outcome State Fault Refusal :=
  command (.tobytes32 rs1) (captureOne .limb32 rs1) (performToBytes .limb32) s

/-- `tobytes.64 fa` (R131). -/
def execToBytes64 (rs1 : RegIdx) (s : State) : Host.Outcome State Fault Refusal :=
  command (.tobytes64 rs1) (captureOne .limb64 rs1) (performToBytes .limb64) s

end Sys2Proof.Machine
end

