-- ==== Sys2Proof/Machine/Invert.lean ====
section
/-! DEFINITION. INV on both paths (42_invert.md). -/

namespace Sys2Proof.Machine

/-- The `Complete` block of INV: `x ^ (2^255 - 21)` mod p, with `x` the operand's residue; 0 gives 0 (R180). -/
def performInv (path : Path) (rd : RegIdx) (c : Captured) (s : State) : State :=
  s.setF rd (canon path (powMod (residue (val path c.a)) 255 Config.invExponent : Nat))

/-- `inv.32 fd, fa` (R180). -/
def execInv32 (rd rs1 : RegIdx) (s : State) : Host.Outcome State Fault Refusal :=
  command (.inv32 rd rs1) (captureOne .limb32 rs1) (performInv .limb32 rd) s

/-- `inv.64 fd, fa` (R180). -/
def execInv64 (rd rs1 : RegIdx) (s : State) : Host.Outcome State Fault Refusal :=
  command (.inv64 rd rs1) (captureOne .limb64 rs1) (performInv .limb64 rd) s

end Sys2Proof.Machine
end

