-- ==== Sys2Proof/Machine/Multiply.lean ====
section
/-! DEFINITION. MUL, SQR and MUL121666 on both paths (41_multiply.md). -/

namespace Sys2Proof.Machine

/-- The `Complete` block of MUL: the exact product, then mod p (R150). -/
def performMul (path : Path) (rd : RegIdx) (c : Captured) (s : State) : State :=
  s.setF rd (canon path (val path c.a * val path c.b))

/-- The `Complete` block of SQR (R151). -/
def performSqr (path : Path) (rd : RegIdx) (c : Captured) (s : State) : State :=
  s.setF rd (canon path (val path c.a * val path c.a))

/-- The `Complete` block of MUL121666 (R152). -/
def performMul121666 (path : Path) (rd : RegIdx) (c : Captured) (s : State) : State :=
  s.setF rd (canon path ((Config.a24 : Int) * val path c.a))

/-- `mul.32 fd, fa, fb` (R150). -/
def execMul32 (rd rs1 rs2 : RegIdx) (s : State) : Host.Outcome State Fault Refusal :=
  command (.mul32 rd rs1 rs2) (captureTwo .limb32 rs1 rs2) (performMul .limb32 rd) s

/-- `mul.64 fd, fa, fb` (R150). -/
def execMul64 (rd rs1 rs2 : RegIdx) (s : State) : Host.Outcome State Fault Refusal :=
  command (.mul64 rd rs1 rs2) (captureTwo .limb64 rs1 rs2) (performMul .limb64 rd) s

/-- `sqr.32 fd, fa` (R151). -/
def execSqr32 (rd rs1 : RegIdx) (s : State) : Host.Outcome State Fault Refusal :=
  command (.sqr32 rd rs1) (captureOne .limb32 rs1) (performSqr .limb32 rd) s

/-- `sqr.64 fd, fa` (R151). -/
def execSqr64 (rd rs1 : RegIdx) (s : State) : Host.Outcome State Fault Refusal :=
  command (.sqr64 rd rs1) (captureOne .limb64 rs1) (performSqr .limb64 rd) s

/-- `mul121666.32 fd, fa` (R152). -/
def execMul121666x32 (rd rs1 : RegIdx) (s : State) : Host.Outcome State Fault Refusal :=
  command (.mul121666x32 rd rs1) (captureOne .limb32 rs1) (performMul121666 .limb32 rd) s

/-- `mul121666.64 fd, fa` (R152). -/
def execMul121666x64 (rd rs1 : RegIdx) (s : State) : Host.Outcome State Fault Refusal :=
  command (.mul121666x64 rd rs1) (captureOne .limb64 rs1) (performMul121666 .limb64 rd) s

end Sys2Proof.Machine
end

