-- ==== Sys2Proof/Machine/Dispatch.lean ====
section
/-! DEFINITION. One arm per command: its meaning. -/

namespace Sys2Proof.Machine

/-- What a command does at a step of its own: its issue at the host's, its completion at the engine's. -/
def exec (i : Instr) (s : State) : Host.Outcome State Fault Refusal :=
  match i with
  | .nop => Sys2Proof.Machine.execNop s
  | .mul32 rd rs1 rs2 => Sys2Proof.Machine.execMul32 rd rs1 rs2 s
  | .mul64 rd rs1 rs2 => Sys2Proof.Machine.execMul64 rd rs1 rs2 s
  | .sqr32 rd rs1 => Sys2Proof.Machine.execSqr32 rd rs1 s
  | .sqr64 rd rs1 => Sys2Proof.Machine.execSqr64 rd rs1 s
  | .mul121666x32 rd rs1 => Sys2Proof.Machine.execMul121666x32 rd rs1 s
  | .mul121666x64 rd rs1 => Sys2Proof.Machine.execMul121666x64 rd rs1 s
  | .inv32 rd rs1 => Sys2Proof.Machine.execInv32 rd rs1 s
  | .inv64 rd rs1 => Sys2Proof.Machine.execInv64 rd rs1 s
  | .frombytes32 rd => Sys2Proof.Machine.execFromBytes32 rd s
  | .frombytes64 rd => Sys2Proof.Machine.execFromBytes64 rd s
  | .tobytes32 rs1 => Sys2Proof.Machine.execToBytes32 rs1 s
  | .tobytes64 rs1 => Sys2Proof.Machine.execToBytes64 rs1 s
  | .wipe => Sys2Proof.Machine.execWipe s

end Sys2Proof.Machine
end

