-- ==== Sys2Proof/Machine/Step.lean ====
section
/-! DEFINITION. One step of the machine: one event, taken whole (R79). -/

namespace Sys2Proof.Machine

/-- One step: a host access, an engine turn or a change of the reset input, as `nextAction` says; a command's own part
is `exec`. -/
def step (s : State) : Host.Outcome State Fault Refusal :=
  match nextAction s with
  | .run i t => exec i t
  | .go t => .next t
  | .fault r => .fault r
  | .refuse r => .refused r

/-- The state whose next step is the host's CMD write of the word `w` (R83, R110; log entry 11). -/
def State.withFetchWord (s : State) (nbits w : Nat) : State := fetchWord s nbits w

end Sys2Proof.Machine
end

