-- ==== Sys2Proof/Machine/Columns.lean ====
section
/-! DEFINITION. The column sums of the informative datapath (R156). No command uses them: any datapath whose result is
the canonical form of the exact product conforms (R44, R156), and the commands compute that product. They are here so
that a claim can compare the two. -/

namespace Sys2Proof.Machine

/-- `c(i,j)`: 2 if `i` and `j` are both odd, else 1 (R156). -/
def oddPair (i j : Nat) : Nat := if i % 2 = 1 ∧ j % 2 = 1 then 2 else 1

/-- `h_k` of the LIMB32 path (R156). -/
def column32 (a b : FReg) (k : Fin 10) : Int :=
  ∑ i : Fin 10, ∑ j : Fin 10,
    if i.val + j.val = k.val then (oddPair i.val j.val : Int) * limb32 a i * limb32 b j
    else if i.val + j.val = k.val + 10 then 19 * (oddPair i.val j.val : Int) * limb32 a i * limb32 b j
    else 0

/-- `h_k` of the LIMB64 path: five columns, `c = 1`, the fold at `i + j = k + 5` (R156). -/
def column64 (a b : FReg) (k : Fin 5) : Nat :=
  ∑ i : Fin 5, ∑ j : Fin 5,
    if i.val + j.val = k.val then limb64 a i * limb64 b j
    else if i.val + j.val = k.val + 5 then 19 * limb64 a i * limb64 b j
    else 0

/-- The columns put back at their bit positions (R156). -/
def columnSum (path : Path) (a b : FReg) : Int :=
  match path with
  | .limb32 => ∑ k : Fin 10, column32 a b k * ((2 ^ pos32 k.val : Nat) : Int)
  | .limb64 => ((∑ k : Fin 5, column64 a b k * 2 ^ (51 * k.val) : Nat) : Int)

end Sys2Proof.Machine
end

