-- ==== Sys2Proof/Machine/Pseudo.lean ====
section
/-! DEFINITION. The assembler form of a command (R106) and the host pseudo-instructions (R107), each the list of events
its expansion puts on the bus. None is a command of the block. -/

namespace Sys2Proof.Machine

/-- `f0` to `f7` (R106). -/
def regName (r : RegIdx) : String :=
  #v["f0", "f1", "f2", "f3", "f4", "f5", "f6", "f7"][r]

/-- A command as the assembler writes it: destination first, commas between (R106). -/
def asm (i : Instr) : String :=
  match i.op with
  | .nop | .wipe => i.mnemonic
  | .mul => i.mnemonic ++ " " ++ regName i.rd ++ ", " ++ regName i.rs1 ++ ", " ++ regName i.rs2
  | .sqr | .mul121666 | .inv => i.mnemonic ++ " " ++ regName i.rd ++ ", " ++ regName i.rs1
  | .frombytes => i.mnemonic ++ " " ++ regName i.rd
  | .tobytes => i.mnemonic ++ " " ++ regName i.rs1

/-- `MemRead(off, 4)` as an event (R12). -/
def readEvent (off : Offset) : Event := .access (.read off .word)

/-- `MemWrite(off, 4, v)` as an event (R12). -/
def writeEvent (off : Offset) (v : Word) : Event := .access (.write off .word v)

/-- `issue <command>` (R107). -/
def issueEvents (i : Instr) : List Event := [writeEvent 0x00C#10 (encode i)]

/-- One turn of the `wait` loop: a STATUS read (R107). -/
def pollEvent : Event := readEvent 0x008#10

/-- The `wait` loop repeats while the word it read has bit 0 set (R107). -/
def waitRepeats (status : Word) : Bool := status.getLsbD 0

/-- What `wait` puts on the bus when `k` of its reads come before the completion: the loop ends at the read after it
(R81, R107; log entry 14). -/
def waitEvents (k : Nat) : List Event := List.replicate k pollEvent ++ [.complete, pollEvent]

/-- `ldfe fn, w0, ..., w9` (R107). -/
def ldfe (n : RegIdx) (w : FReg) : List Event := (List.finRange 10).map fun k => writeEvent (fwOffset n k) w[k]

/-- `rdfe fn` (R107). -/
def rdfe (n : RegIdx) : List Event := (List.finRange 10).map fun k => readEvent (fwOffset n k)

/-- `ldbytes b0, ..., b31` (R107). -/
def ldbytes (b : ByteString) : List Event := (List.finRange 8).map fun m => writeEvent (bwOffset m) (bytesWord b m)

/-- `rdbytes` (R107). -/
def rdbytes : List Event := (List.finRange 8).map fun m => readEvent (bwOffset m)

/-- `clrst`: clears DONE and ERR (R107). -/
def clrst : List Event := [writeEvent 0x008#10 0x00000006#32]

/-- `run <command>`: issue, then wait (R107). -/
def runEvents (i : Instr) (k : Nat) : List Event := issueEvents i ++ waitEvents k

end Sys2Proof.Machine
end

