-- ==== Sys2Proof/Safety.lean ====
section
/-! DEFINITION. The terms claims are stated in: the invariant of the block, what an observer without the operand values
sees, and which events leave an in-flight command alone. -/

namespace Sys2Proof.Machine

/-- The operands a command reads in this state are admissible under its path (R35, R109). -/
def operandsAdmissible (i : Instr) (s : State) : Bool :=
  match i.op with
  | .mul => adm i.path (s.getF i.rs1) && adm i.path (s.getF i.rs2)
  | .sqr | .mul121666 | .inv | .tobytes => adm i.path (s.getF i.rs1)
  | .nop | .frombytes | .wipe => true

/-- The operands a command reads in this state (R109): F[rs1], F[rs2] or BYTES as its opcode says, 0 for the others. -/
def operandsOf (i : Instr) (s : State) : Captured :=
  match i.op with
  | .nop | .wipe => ⟨zeroReg, zeroReg, zeroBytes⟩
  | .mul => ⟨s.getF i.rs1, s.getF i.rs2, zeroBytes⟩
  | .sqr | .mul121666 | .inv | .tobytes => ⟨s.getF i.rs1, zeroReg, zeroBytes⟩
  | .frombytes => ⟨zeroReg, zeroReg, s.bytes⟩

/-- The captured operands fit the command: what the opcode reads is admissible, what it does not read is 0 (R42,
R110). -/
def InFlight.wellFormed (r : InFlight) : Bool :=
  match r.cmd.op with
  | .nop | .wipe => r.ops == Captured.zero
  | .mul => adm r.cmd.path r.ops.a && adm r.cmd.path r.ops.b && r.ops.x == zeroBytes
  | .sqr | .mul121666 | .inv | .tobytes => adm r.cmd.path r.ops.a && r.ops.b == zeroReg && r.ops.x == zeroBytes
  | .frombytes => r.ops.a == zeroReg && r.ops.b == zeroReg

/-- What holds of the block at reset and after every step. -/
structure State.Inv (s : State) : Prop where
  /-- ERRCODE = 0 if and only if ERR = 0 (R40). -/
  errCode_zero_iff : s.errCode = 0#4 ↔ s.err = false
  /-- ERRCODE is one of the codes 0 to 4 (R200). -/
  errCode_le : s.errCode.toNat ≤ 4
  /-- LASTCMD is a legal command word: rejected words never reach it (R41). -/
  lastCmd_legal : legalWord s.lastCmd = true
  /-- The record in flight was captured as its command says, and LASTCMD is its word (R42, R110). -/
  inflight_ok : ∀ r, s.inflight = some r → r.wellFormed = true ∧ s.lastCmd = encode r.cmd
  /-- No command is in flight while `rst` is asserted (R240). -/
  reset_idle : s.rst = true → s.inflight = none

/-- What an observer sees of the block who sees no register, no byte of BYTES, no captured operand and no read data. -/
structure ControlView where
  irqEn : Bool
  done : Bool
  err : Bool
  errCode : BitVec 4
  lastCmd : Word
  cmd : Option Instr
  rst : Bool
  turn : Agent
  schedule : List Event
  deriving DecidableEq, Repr

/-- The control view of a state (R250: everything that must not depend on operand values). -/
def State.control (s : State) : ControlView where
  irqEn := s.irqEn
  done := s.done
  err := s.err
  errCode := s.errCode
  lastCmd := s.lastCmd
  cmd := s.inflight.map (·.cmd)
  rst := s.rst
  turn := s.turn
  schedule := s.schedule

end Sys2Proof.Machine

namespace Sys2Proof

/-- The event is a host write to CMD of this word. -/
def Event.isCmdWrite (c : Word) : Event → Bool
  | .access (.write off width v) => off == 0x00C#10 && width == .word && v == c
  | .access (.read _ _) | .complete | .rst _ => false

/-- The event is a soft reset: a 32-bit CTRL write with bit 0 = 1 (R39, R241). -/
def Event.isSoftReset : Event → Bool
  | .access (.write off width v) => off == 0x004#10 && width == .word && v.getLsbD 0
  | .access (.read _ _) | .complete | .rst _ => false

/-- The event is a legal host access that is no soft reset, or an engine turn: nothing that abandons a command or stops
the run (R241, R240, R73). -/
def Event.keepsCommand (e : Event) : Bool :=
  match e with
  | .access a => a.wellFormed && !e.isSoftReset
  | .complete => true
  | .rst _ => false

end Sys2Proof

namespace Sys2Proof.Machine

/-- The block has its reset values in every piece of its architectural state (R46). -/
def State.isCleared (s : State) : Prop :=
  (∀ n : RegIdx, ∀ k : Fin 10, (s.getF n)[k] = 0#32) ∧ (∀ k : Fin 32, s.bytes[k] = 0#8) ∧ s.irqEn = false ∧
    s.done = false ∧ s.err = false ∧ s.errCode = 0#4 ∧ s.lastCmd = 0x00000000#32 ∧ s.inflight = none

/-- The next event resets the block: a soft reset, or the release of `rst` (R240, R241). -/
def State.nextIsReset (s : State) : Bool :=
  match s.schedule with
  | [] => false
  | e :: _ => e.isSoftReset || (e == .rst false && s.rst)

/-- The next step is the engine's: its turn is the next event, or no event is left (R108, R112). -/
def State.nextIsEngine (s : State) : Bool :=
  match s.schedule with
  | [] => true
  | e :: _ => e == .complete

/-- The state once a host access is over: its event is gone, the bus has its answer, nothing else differs. -/
def State.answered (s : State) (rest : List Event) (r : BusResp) : State :=
  { s with schedule := rest, turn := .host, resp := r }

/-- The state with ERR set, and with the code of the first error since ERR was last 0 (R202). -/
def State.withError (s : State) (code : BitVec 4) : State :=
  { s with err := true, errCode := if s.err then s.errCode else code }

/-- The engine's turn with the command in flight and these operands captured. -/
def completing (i : Instr) (ops : Captured) (s : State) : State :=
  { s with turn := .engine, inflight := some ⟨i, ops⟩ }

/-- The state a completed command leaves: the destination register written, INFLIGHT None, DONE set (R111). -/
def State.completedF (s : State) (rd : RegIdx) (w : FReg) : State :=
  { s with f := s.f.set rd w, inflight := none, done := true }

/-- Register `n` in the state an outcome answers. -/
def outcomeF (o : Host.Outcome State Fault Refusal) (n : RegIdx) : Option FReg :=
  match o with
  | .next t => some (t.getF n)
  | .fault _ | .refused _ => none

/-- BYTES in the state an outcome answers. -/
def outcomeBytes (o : Host.Outcome State Fault Refusal) : Option ByteString :=
  match o with
  | .next t => some t.bytes
  | .fault _ | .refused _ => none

/-- The state runs: it answers with a next state of this kind after `k` steps. -/
def runsTo (k : Nat) (s : State) (good : State → Prop) : Prop :=
  ∃ t : State, Sys2Proof.core.run k s = .next t ∧ good t

end Sys2Proof.Machine
end

