-- ==== Sys2Proof/Certificates/Slice0/Obligations.lean ====
section
/-! DEFINITION. The statements about the block, for the provers. -/

open Sys2Proof Sys2Proof.Machine

/-! ### Reset -/

/-- R46: the reset state in full, and both resets produce it. -/
def Obligations.ResetStateIsAllZero : Prop :=
  (State.reset.isCleared ∧ State.reset.busy = false ∧ State.reset.irq = false) ∧
    (∀ (s : State) (v : Word) (rest : List Event), s.rst = false → v.getLsbD 0 = true →
      s.schedule = .access (.write 0x004#10 .word v) :: rest →
      ∃ t, step s = .next t ∧ t.isCleared ∧ t.busy = false ∧ t.irq = false) ∧
    (∀ (s : State) (rest : List Event), s.rst = true → s.schedule = .rst false :: rest →
      ∃ t, step s = .next t ∧ t.isCleared ∧ t.busy = false ∧ t.irq = false)

/-- R241: a CTRL write with bit 0 = 1 leaves the reset state, busy or not, whatever the other bits. -/
def Obligations.SoftResetLeavesResetState : Prop :=
  ∀ (s : State) (v : Word) (rest : List Event), s.rst = false → v.getLsbD 0 = true →
    s.schedule = .access (.write 0x004#10 .word v) :: rest →
    step s = .next { State.reset with rst := false, turn := .host, resp := .ack, schedule := rest }

/-- R240: asserting `rst` abandons the command in flight, with no result written and DONE not set; while it is asserted no
host access is answered and no command completes; releasing it leaves the reset state. That the registers keep their values
meanwhile is the model's choice (log entry 4), and so is the form of the refusal (log entry 6); that an engine turn then
changes nothing, whatever is in flight, is inferred (log entry 5). -/
def Obligations.HardResetAbandonsAndClears : Prop :=
  (∀ (s : State) (rest : List Event), s.schedule = .rst true :: rest →
    ∃ t, step s = .next t ∧ t.rst = true ∧ t.inflight = none ∧ t.f = s.f ∧ t.bytes = s.bytes ∧ t.done = s.done ∧
      t.schedule = rest) ∧
  (∀ (s : State) (a : Access) (rest : List Event), s.rst = true → s.schedule = .access a :: rest →
    step s = .refused .accessDuringReset) ∧
  (∀ (s : State) (rest : List Event), s.rst = true → s.schedule = .complete :: rest →
    step s = .next { s with schedule := rest }) ∧
  (∀ (s : State) (rest : List Event), s.rst = true → s.schedule = .rst false :: rest →
    step s = .next { State.reset with rst := false, turn := s.turn, resp := s.resp, schedule := rest })

/-! ### The invariant of the block -/

/-- The reset state meets the invariant. -/
def Obligations.ResetMeetsInvariant : Prop := State.reset.Inv

/-- Every step keeps the invariant: ERRCODE is 0 exactly when ERR is, and one of 0 to 4; LASTCMD is a legal word; the
in-flight record holds admissible operands and zeros, and LASTCMD is its word; reset is idle (R40, R41, R42, R200). -/
def Obligations.StepKeepsInvariant : Prop :=
  ∀ s t : State, s.Inv → step s = .next t → t.Inv

/-! ### The register window -/

/-- R38: ID always reads 0x25510100; a write to it is ignored and raises no error. -/
def Obligations.IdReadsConstantAndIgnoresWrites : Prop :=
  ∀ (s : State) (rest : List Event), s.rst = false →
    (s.schedule = .access (.read 0x000#10 .word) :: rest →
      step s = .next (s.answered rest (.data 0x25510100#32))) ∧
    (∀ v : Word, s.schedule = .access (.write 0x000#10 .word v) :: rest → step s = .next (s.answered rest .ack))

/-- R39: CTRL reads IRQ_EN in bit 1 and 0 elsewhere; a write with bit 0 = 0 sets IRQ_EN to bit 1 and nothing else; a
write with bit 0 = 1 is the soft reset and leaves IRQ_EN = 0. BUSY does not matter. IRQ_EN is 0 at reset, and while it is
0 the interrupt output is 0. -/
def Obligations.CtrlReadsAndWritesIrqEn : Prop :=
  ∀ (s : State) (rest : List Event), s.rst = false →
    (s.schedule = .access (.read 0x004#10 .word) :: rest →
      ∃ w : Word, step s = .next (s.answered rest (.data w)) ∧ w.getLsbD 1 = s.irqEn ∧
        ∀ i, i < 32 → i ≠ 1 → w.getLsbD i = false) ∧
    (∀ v : Word, v.getLsbD 0 = false → s.schedule = .access (.write 0x004#10 .word v) :: rest →
      step s = .next { s.answered rest .ack with irqEn := v.getLsbD 1 }) ∧
    (∀ v : Word, v.getLsbD 0 = true → s.schedule = .access (.write 0x004#10 .word v) :: rest →
      ∃ t, step s = .next t ∧ t.isCleared ∧ t.irqEn = false) ∧
    State.reset.irqEn = false ∧ (s.irqEn = false → s.irq = false) ∧
    (s.irqEn = true → s.irq = (s.done || s.err))

/-- R40, R85: the bits STATUS reads as, and that reading it changes nothing. -/
def Obligations.StatusReadLayout : Prop :=
  ∀ (s : State) (rest : List Event), s.rst = false → s.schedule = .access (.read 0x008#10 .word) :: rest →
    ∃ w : Word, step s = .next (s.answered rest (.data w)) ∧ w.getLsbD 0 = s.inflight.isSome ∧ w.getLsbD 1 = s.done ∧
      w.getLsbD 2 = s.err ∧ (∀ i, i < 4 → w.getLsbD (8 + i) = s.errCode.getLsbD i) ∧
      ∀ i, (3 ≤ i ∧ i ≤ 7 ∨ 12 ≤ i) → w.getLsbD i = false

/-- R40: a STATUS write clears DONE where bit 1 is 1, ERR and ERRCODE where bit 2 is 1, and nothing else, busy or not. -/
def Obligations.StatusWriteOneClears : Prop :=
  ∀ (s : State) (v : Word) (rest : List Event), s.rst = false →
    s.schedule = .access (.write 0x008#10 .word v) :: rest →
    step s = .next
      { s.answered rest .ack with
        done := if v.getLsbD 1 then false else s.done
        err := if v.getLsbD 2 then false else s.err
        errCode := if v.getLsbD 2 then 0#4 else s.errCode }

/-- R72: the reserved offsets of R71 read 0 and ignore writes, with no error and no state change. -/
def Obligations.ReservedOffsetsReadZeroIgnoreWrites : Prop :=
  ∀ (s : State) (off : Offset) (rest : List Event), s.rst = false → off.toNat % 4 = 0 →
    (0x010 ≤ off.toNat ∧ off.toNat ≤ 0x01C ∨ 0x040 ≤ off.toNat ∧ off.toNat ≤ 0x0FC ∨
      (∃ n, n ≤ 7 ∧ 0x100 + 0x40 * n + 0x28 ≤ off.toNat ∧ off.toNat ≤ 0x100 + 0x40 * n + 0x3C) ∨
      0x300 ≤ off.toNat ∧ off.toNat ≤ 0x3FC) →
    (s.schedule = .access (.read off .word) :: rest → step s = .next (s.answered rest (.data 0x00000000#32))) ∧
    (∀ v : Word, s.schedule = .access (.write off .word v) :: rest → step s = .next (s.answered rest .ack))

/-- R85: what a read of each register of the map returns. -/
def Obligations.WindowReadsReturnRegisters : Prop :=
  ∀ (s : State) (rest : List Event), s.rst = false →
    (s.schedule = .access (.read 0x00C#10 .word) :: rest → step s = .next (s.answered rest (.data s.lastCmd))) ∧
    (∀ m : Fin 8, s.schedule = .access (.read (BitVec.ofNat 10 (0x020 + 4 * m.val)) .word) :: rest →
      step s = .next (s.answered rest (.data (bytesWord s.bytes m)))) ∧
    (∀ (n : RegIdx) (k : Fin 10),
      s.schedule = .access (.read (BitVec.ofNat 10 (0x100 + 0x40 * n.val + 4 * k.val)) .word) :: rest →
      step s = .next (s.answered rest (.data (s.getF n)[k])))

/-- R77: a legal read changes nothing but what the bus answers, so reading again gives the same word. -/
def Obligations.ReadsHaveNoSideEffect : Prop :=
  ∀ (s : State) (off : Offset) (rest : List Event), s.rst = false → off.toNat % 4 = 0 →
    s.schedule = .access (.read off .word) :: .access (.read off .word) :: rest →
    ∃ (w : Word) (t : State),
      step s = .next t ∧ t = s.answered (.access (.read off .word) :: rest) (.data w) ∧
        step t = .next (s.answered rest (.data w))

/-- R77, R74, R71: with no command in flight, a write to an operand word stores it and changes nothing else. -/
def Obligations.IdleOperandWriteStoresOneWord : Prop :=
  ∀ (s : State) (v : Word) (rest : List Event), s.rst = false → s.inflight = none →
    (∀ (n : RegIdx) (k : Fin 10),
      s.schedule = .access (.write (BitVec.ofNat 10 (0x100 + 0x40 * n.val + 4 * k.val)) .word v) :: rest →
      ∃ t, step s = .next t ∧ t = { s.answered rest .ack with f := t.f } ∧
        ∀ (n' : RegIdx) (k' : Fin 10), (t.getF n')[k'] = if n' = n ∧ k' = k then v else (s.getF n')[k']) ∧
    (∀ m : Fin 8, s.schedule = .access (.write (BitVec.ofNat 10 (0x020 + 4 * m.val)) .word v) :: rest →
      ∃ t, step s = .next t ∧ t = { s.answered rest .ack with bytes := t.bytes } ∧
        ∀ k : Fin 32, t.bytes[k] =
          if k.val / 4 = m.val then v.extractLsb' (8 * (k.val % 4)) 8 else s.bytes[k])

/-- R78: while a command is in flight, a write to an operand word is dropped with WRITE_WHILE_BUSY, and a read of one
returns its current content, which is the one before the command: no step that leaves a command in flight changes a
register or BYTES. -/
def Obligations.BusyOperandWriteDroppedReadOld : Prop :=
  (∀ (s : State) (rest : List Event), s.rst = false → s.inflight ≠ none →
    (∀ (n : RegIdx) (k : Fin 10) (off : Offset), off = BitVec.ofNat 10 (0x100 + 0x40 * n.val + 4 * k.val) →
      (∀ v : Word, s.schedule = .access (.write off .word v) :: rest →
        step s = .next ((s.answered rest .ack).withError 4#4)) ∧
      (s.schedule = .access (.read off .word) :: rest →
        step s = .next (s.answered rest (.data (s.getF n)[k])))) ∧
    (∀ (m : Fin 8) (off : Offset), off = BitVec.ofNat 10 (0x020 + 4 * m.val) →
      (∀ v : Word, s.schedule = .access (.write off .word v) :: rest →
        step s = .next ((s.answered rest .ack).withError 4#4)) ∧
      (s.schedule = .access (.read off .word) :: rest →
        step s = .next (s.answered rest (.data (bytesWord s.bytes m)))))) ∧
  (∀ s t : State, step s = .next t → t.inflight ≠ none → t.f = s.f ∧ t.bytes = s.bytes)

/-- R73, and 93_implementation_defined.md section 2: an access that is not 32 bits wide, or not at a multiple of 4, is a
bus error that returns 0, and the host's step ends in a fault (log entry 3). -/
def Obligations.IllegalAccessIsBusError : Prop :=
  ∀ (s : State) (a : Access) (rest : List Event), s.rst = false → s.schedule = .access a :: rest →
    (a.width ≠ .word ∨ a.off.toNat % 4 ≠ 0) → step s = .fault (.busError 0x00000000#32)

/-- R70: the base is a multiple of 0x400, and a host access inside the window reaches the block at its distance from the
base. That an access outside the window does not reach the block and changes nothing is inferred (log entry 7). -/
def Obligations.WindowRoutesAddresses : Prop :=
  Config.mmBase % 0x400 = 0 ∧
    ∀ (s : State) (a : Nat) (access : Offset → Access),
      (∀ off : Offset, Config.mmBase + off.toNat = a →
        s.present a access = { s with schedule := s.schedule ++ [.access (access off)] }) ∧
      (a < Config.mmBase ∨ Config.mmBase + 0x400 ≤ a → s.present a access = s)

/-- R37, R74: byte lane j of BW[m] is B[4m + j]. -/
def Obligations.ByteLanesAreLittleEndian : Prop :=
  ∀ (s : State) (m : Fin 8) (rest : List Event), s.rst = false →
    s.schedule = .access (.read (BitVec.ofNat 10 (0x020 + 4 * m.val)) .word) :: rest →
    ∃ w : Word, step s = .next (s.answered rest (.data w)) ∧
      ∀ j : Fin 4, w.extractLsb' (8 * j.val) 8 = s.bytes[4 * m.val + j.val]'(by omega)

/-- R74, R75, R107: the eight writes of `ldbytes` load BYTES with exactly the string, the ten of `ldfe` the register
with exactly the ten words, and nothing else changes. -/
def Obligations.LoadSequencesLoadExactly : Prop :=
  ∀ (s : State) (rest : List Event), s.rst = false → s.inflight = none →
    (∀ b : ByteString, s.schedule = ldbytes b ++ rest →
      Sys2Proof.core.run 8 s = .next ({ s with bytes := b }.answered rest .ack)) ∧
    (∀ (n : RegIdx) (w : FReg), s.schedule = ldfe n w ++ rest →
      Sys2Proof.core.run 10 s = .next ({ s with f := s.f.set n w }.answered rest .ack))

/-! ### Errors and the interrupt -/

/-- R104: a word that matches no row of the table is one of the five kinds listed, and the other way round; written to
CMD with no command in flight it raises ILLEGAL_CMD and has no other effect. -/
def Obligations.IllegalWordsAreRejected : Prop :=
  (∀ c : Word, legalWord c = false ↔
    (8 ≤ (opcField c).toNat ∨ rsv0Field c ≠ 0#3 ∨ rsv1Field c ≠ 0#1 ∨ rsv2Field c ≠ 0#1 ∨ rsv3Field c ≠ 0#13 ∨
      ((opcField c = 0#4 ∨ opcField c = 7#4) ∧
        (pField c ≠ 0#1 ∨ rdField c ≠ 0#3 ∨ rs1Field c ≠ 0#3 ∨ rs2Field c ≠ 0#3)) ∨
      ((opcField c = 2#4 ∨ opcField c = 3#4 ∨ opcField c = 4#4) ∧ rs2Field c ≠ 0#3) ∨
      (opcField c = 5#4 ∧ (rs1Field c ≠ 0#3 ∨ rs2Field c ≠ 0#3)) ∨
      (opcField c = 6#4 ∧ (rdField c ≠ 0#3 ∨ rs2Field c ≠ 0#3)))) ∧
  (∀ (s : State) (c : Word) (rest : List Event), s.rst = false → s.inflight = none → legalWord c = false →
    s.schedule = .access (.write 0x00C#10 .word c) :: rest →
    step s = .next ((s.answered rest .ack).withError 1#4))

/-- R204: the checks of Issue in their order, the first that fails being the one raised; a write to an operand word
raises WRITE_WHILE_BUSY alone. -/
def Obligations.IssueChecksInOrder : Prop :=
  (∀ (s : State) (c : Word) (rest : List Event), s.rst = false →
    s.schedule = .access (.write 0x00C#10 .word c) :: rest →
    (s.inflight ≠ none → step s = .next ((s.answered rest .ack).withError 2#4)) ∧
    (s.inflight = none → legalWord c = false → step s = .next ((s.answered rest .ack).withError 1#4)) ∧
    (∀ i : Instr, s.inflight = none → c = encode i →
      (i.op = .sqr ∨ i.op = .mul121666 ∨ i.op = .inv ∨ i.op = .tobytes ∨ i.op = .mul) →
      adm i.path (s.getF i.rs1) = false → step s = .next ((s.answered rest .ack).withError 3#4)) ∧
    (∀ i : Instr, s.inflight = none → c = encode i → i.op = .mul → adm i.path (s.getF i.rs1) = true →
      adm i.path (s.getF i.rs2) = false → step s = .next ((s.answered rest .ack).withError 3#4))) ∧
  (∀ (s t : State) (v : Word) (off : Offset) (rest : List Event), s.err = false →
    s.schedule = .access (.write off .word v) :: rest → 0x020 ≤ off.toNat → off.toNat < 0x300 →
    step s = .next t → t.err = true → t.errCode = 4#4)

/-- R207: a step that raises an error leaves the state as it was but for ERR and ERRCODE (the event is taken and the bus
has its acknowledge); only a host write can raise one, and the code is one of 1 to 4. -/
def Obligations.ErrorsArePrecise : Prop :=
  ∀ s t : State, s.err = false → step s = .next t → t.err = true →
    (∃ off v rest, s.schedule = .access (.write off .word v) :: rest ∧
      t = { s.answered rest .ack with err := true, errCode := t.errCode }) ∧
    1 ≤ t.errCode.toNat ∧ t.errCode.toNat ≤ 4

/-- R202, R40: while ERR is 1, no step changes ERRCODE but a STATUS write with bit 2 = 1 and a reset, after which both
are 0: the first code stays. That the assertion of `rst` keeps both, and they are cleared at its release, is the model's
choice (log entry 4). -/
def Obligations.FirstErrorCodeSticks : Prop :=
  ∀ s t : State, s.err = true → step s = .next t →
    (t.err = true ∧ t.errCode = s.errCode) ∨
    (t.err = false ∧ t.errCode = 0#4 ∧
      ((∃ v rest, s.schedule = .access (.write 0x008#10 .word v) :: rest ∧ v.getLsbD 2 = true) ∨
        s.nextIsReset = true))

/-- R206: irq = IRQ_EN AND (DONE OR ERR); clearing DONE and ERR, clearing IRQ_EN (which leaves them), or a reset (which
leaves IRQ_EN = 0) takes it away. That the host's interrupt inputs are numbered, so that `irq` is on the line numbered
IRQ_LINE and on no other, is the model's choice (log entry 8). -/
def Obligations.IrqFollowsDoneAndErr : Prop :=
  (∀ s : State, s.irq = (s.irqEn && (s.done || s.err))) ∧
  (∀ (s : State) (line : Nat), s.irqOn line = true ↔ line = Config.irqLine ∧ s.irq = true) ∧
  (∀ (s t : State) (v : Word) (rest : List Event), s.schedule = .access (.write 0x008#10 .word v) :: rest →
    v.getLsbD 1 = true → v.getLsbD 2 = true → step s = .next t → t.irq = false) ∧
  (∀ (s t : State) (v : Word) (rest : List Event), s.schedule = .access (.write 0x004#10 .word v) :: rest →
    v.getLsbD 0 = false → v.getLsbD 1 = false → step s = .next t →
    t.irq = false ∧ t.done = s.done ∧ t.err = s.err) ∧
  (∀ s t : State, s.nextIsReset = true → step s = .next t → t.irq = false ∧ t.irqEn = false)

/-! ### The encoding -/

/-- Decoding the word of a command gives the command back, at every operand. -/
def Obligations.DecodeOfEncodeIsSame : Prop :=
  ∀ i : Instr, decode (encode i) = .ok i

/-- A word that decodes is the word of what it decodes to: no bit of a legal word is dropped. -/
def Obligations.EncodeOfDecodeIsSame : Prop :=
  ∀ (c : Word) (i : Instr), decode c = .ok i → encode i = c

/-- R103, R105: a word decodes exactly when it matches a row of the match and mask table, that row is its command's, and
no other row matches. -/
def Obligations.DecodesExactlyTableRows : Prop :=
  ∀ c : Word,
    (legalWord c = true ↔ ∃ i, decode c = .ok i) ∧
    (∀ f, f ∈ forms → f.encodes c = true → ∀ i, decode c = .ok i → f.mnemonic = i.mnemonic) ∧
    (∀ f g, f ∈ forms → g ∈ forms → f.encodes c = true → g.encodes c = true → f = g)

/-- Command words written out from R101 and R106, one at least per family (95_test_vectors.md EN-1 to EN-5). -/
def Obligations.SampleWordsDecode : Prop :=
  decode 0b0000000000000_010_0_001_0_011_000_1_0001#32 = .ok (.mul64 3 1 2) ∧
  decode 0b0000000000000_111_0_111_0_111_000_0_0001#32 = .ok (.mul32 7 7 7) ∧
  decode 0b0000000000000_000_0_000_0_001_000_0_0010#32 = .ok (.sqr32 1 0) ∧
  decode 0b0000000000000_000_0_110_0_101_000_1_0011#32 = .ok (.mul121666x64 5 6) ∧
  decode 0b0000000000000_000_0_010_0_100_000_0_0100#32 = .ok (.inv32 4 2) ∧
  decode 0b0000000000000_000_0_000_0_011_000_1_0101#32 = .ok (.frombytes64 3) ∧
  decode 0b0000000000000_000_0_011_0_000_000_1_0110#32 = .ok (.tobytes64 3) ∧
  decode 0b0000000000000_000_0_000_0_000_000_0_0000#32 = .ok .nop ∧
  decode 0b0000000000000_000_0_000_0_000_000_0_0111#32 = .ok .wipe

/-! ### A step runs the decoded command -/

/-- R41, R110: a CMD write of a word that decodes to `i` is `exec i` at the host's turn. The state `withFetchWord` gives
does so at its next step: that it puts the CMD write first and releases `rst` without clearing anything is the model's form
of placing a word (log entry 11), and the byte lanes `decodeTableWord` lays the word in are inferred (log entry 15). -/
def Obligations.StepRunsDecodedCommand : Prop :=
  (∀ (s : State) (c : Word) (i : Instr) (rest : List Event), s.rst = false →
    s.schedule = .access (.write 0x00C#10 .word c) :: rest → decode c = .ok i →
    step s = exec i (s.answered rest .ack)) ∧
  (∀ (s : State) (w : Nat) (i : Instr), decodeTableWord 32 w = some i →
    step (s.withFetchWord 32 w) = exec i ({ s with rst := false }.answered s.schedule .ack))

/-- R111, R112: the engine's turn is `exec` of the command in flight; with none nothing happens; once no event is left
the turn is the engine's (log entry 1). -/
def Obligations.EngineTurnCompletesInFlight : Prop :=
  (∀ (s : State) (r : InFlight) (rest : List Event), s.rst = false → s.schedule = .complete :: rest →
    s.inflight = some r → step s = exec r.cmd { s with schedule := rest, turn := .engine }) ∧
  (∀ (s : State) (r : InFlight), s.rst = false → s.schedule = [] → s.inflight = some r →
    step s = exec r.cmd { s with turn := .engine }) ∧
  (∀ (s : State) (rest : List Event), s.schedule = .complete :: rest → s.inflight = none →
    step s = .next { s with schedule := rest }) ∧
  (∀ s : State, s.schedule = [] → s.inflight = none → step s = .next s)

/-! ### Issue: what each command captures (R109, R110) -/

/-- MUL with admissible operands, on an idle block, is accepted: A and B are captured, LASTCMD is the word, nothing else
changes. -/
def Obligations.MulIsAccepted : Prop :=
  ∀ (s : State) (rd rs1 rs2 : RegIdx), s.turn = .host → s.inflight = none →
    (adm32 (s.getF rs1) = true → adm32 (s.getF rs2) = true →
      exec (.mul32 rd rs1 rs2) s = .next
        { s with
          inflight := some ⟨.mul32 rd rs1 rs2, ⟨s.getF rs1, s.getF rs2, zeroBytes⟩⟩
          lastCmd := encode (.mul32 rd rs1 rs2) }) ∧
    (adm64 (s.getF rs1) = true → adm64 (s.getF rs2) = true →
      exec (.mul64 rd rs1 rs2) s = .next
        { s with
          inflight := some ⟨.mul64 rd rs1 rs2, ⟨s.getF rs1, s.getF rs2, zeroBytes⟩⟩
          lastCmd := encode (.mul64 rd rs1 rs2) })

/-- SQR, MUL121666, INV and TOBYTES with an admissible operand, on an idle block, are accepted: A is captured. -/
def Obligations.OneOperandCommandsAreAccepted : Prop :=
  ∀ (s : State) (rd rs1 : RegIdx), s.turn = .host → s.inflight = none →
    (∀ i ∈ [Instr.sqr32 rd rs1, .mul121666x32 rd rs1, .inv32 rd rs1, .tobytes32 rs1], adm32 (s.getF rs1) = true →
      exec i s = .next
        { s with inflight := some ⟨i, ⟨s.getF rs1, zeroReg, zeroBytes⟩⟩, lastCmd := encode i }) ∧
    (∀ i ∈ [Instr.sqr64 rd rs1, .mul121666x64 rd rs1, .inv64 rd rs1, .tobytes64 rs1], adm64 (s.getF rs1) = true →
      exec i s = .next
        { s with inflight := some ⟨i, ⟨s.getF rs1, zeroReg, zeroBytes⟩⟩, lastCmd := encode i })

/-- FROMBYTES, NOP and WIPE on an idle block are accepted whatever the registers and BYTES hold: FROMBYTES captures
BYTES, the others nothing. -/
def Obligations.UntestedCommandsAreAccepted : Prop :=
  ∀ (s : State) (rd : RegIdx), s.turn = .host → s.inflight = none →
    (∀ i ∈ [Instr.frombytes32 rd, .frombytes64 rd], exec i s = .next
        { s with inflight := some ⟨i, ⟨zeroReg, zeroReg, s.bytes⟩⟩, lastCmd := encode i }) ∧
    (∀ i ∈ [Instr.nop, .wipe], exec i s = .next
        { s with inflight := some ⟨i, ⟨zeroReg, zeroReg, zeroBytes⟩⟩, lastCmd := encode i })

/-! ### Completion: what each command leaves (R111 with the Complete block of its rule) -/

/-- R150: F[rd] becomes the canonical form of the exact product; BUSY ends, DONE is set, nothing else changes. -/
def Obligations.MulCompletes : Prop :=
  ∀ (s : State) (rd rs1 rs2 : RegIdx) (c : Captured),
    exec (.mul32 rd rs1 rs2) (completing (.mul32 rd rs1 rs2) c s) =
      .next ((completing (.mul32 rd rs1 rs2) c s).completedF rd
        (radix32 (val32 c.a * val32 c.b % (2 ^ 255 - 19)).toNat)) ∧
    exec (.mul64 rd rs1 rs2) (completing (.mul64 rd rs1 rs2) c s) =
      .next ((completing (.mul64 rd rs1 rs2) c s).completedF rd
        (radix64 (val64 c.a * val64 c.b % (2 ^ 255 - 19))))

/-- R151: F[rd] becomes the canonical form of the square. -/
def Obligations.SqrCompletes : Prop :=
  ∀ (s : State) (rd rs1 : RegIdx) (c : Captured),
    exec (.sqr32 rd rs1) (completing (.sqr32 rd rs1) c s) =
      .next ((completing (.sqr32 rd rs1) c s).completedF rd (radix32 (val32 c.a ^ 2 % (2 ^ 255 - 19)).toNat)) ∧
    exec (.sqr64 rd rs1) (completing (.sqr64 rd rs1) c s) =
      .next ((completing (.sqr64 rd rs1) c s).completedF rd (radix64 (val64 c.a ^ 2 % (2 ^ 255 - 19))))

/-- R152: F[rd] becomes the canonical form of 121666 times the operand. -/
def Obligations.Mul121666Completes : Prop :=
  ∀ (s : State) (rd rs1 : RegIdx) (c : Captured),
    exec (.mul121666x32 rd rs1) (completing (.mul121666x32 rd rs1) c s) =
      .next ((completing (.mul121666x32 rd rs1) c s).completedF rd
        (radix32 (121666 * val32 c.a % (2 ^ 255 - 19)).toNat)) ∧
    exec (.mul121666x64 rd rs1) (completing (.mul121666x64 rd rs1) c s) =
      .next ((completing (.mul121666x64 rd rs1) c s).completedF rd
        (radix64 (121666 * val64 c.a % (2 ^ 255 - 19))))

/-- R180, R182: F[rd] becomes the canonical form of the operand's residue to the power 2^255 - 21, whatever chain
computes it. -/
def Obligations.InvCompletes : Prop :=
  ∀ (s : State) (rd rs1 : RegIdx) (c : Captured),
    exec (.inv32 rd rs1) (completing (.inv32 rd rs1) c s) =
      .next ((completing (.inv32 rd rs1) c s).completedF rd
        (radix32 ((residue (val32 c.a)) ^ Config.invExponent % Config.p))) ∧
    exec (.inv64 rd rs1) (completing (.inv64 rd rs1) c s) =
      .next ((completing (.inv64 rd rs1) c s).completedF rd
        (radix64 ((val64 c.a % Config.p) ^ Config.invExponent % Config.p)))

/-- R130: F[rd] becomes the limb form of the string's integer without bit 255, not reduced. -/
def Obligations.FromBytesCompletes : Prop :=
  ∀ (s : State) (rd : RegIdx) (c : Captured),
    exec (.frombytes32 rd) (completing (.frombytes32 rd) c s) =
      .next ((completing (.frombytes32 rd) c s).completedF rd
        (radix32 ((∑ k : Fin 32, c.x[k].toNat * 2 ^ (8 * k.val)) % 2 ^ 255))) ∧
    exec (.frombytes64 rd) (completing (.frombytes64 rd) c s) =
      .next ((completing (.frombytes64 rd) c s).completedF rd
        (radix64 ((∑ k : Fin 32, c.x[k].toNat * 2 ^ (8 * k.val)) % 2 ^ 255)))

/-- R131: BYTES becomes the little-endian bytes of the operand's residue; the registers keep their values, BUSY ends,
DONE is set. -/
def Obligations.ToBytesCompletes : Prop :=
  ∀ (s : State) (rs1 : RegIdx) (c : Captured),
    (∃ t, exec (.tobytes32 rs1) (completing (.tobytes32 rs1) c s) = .next t ∧
      t = { s with turn := .engine, inflight := none, done := true, bytes := t.bytes } ∧
      ∀ k : Fin 32, t.bytes[k].toNat = (val32 c.a % (2 ^ 255 - 19)).toNat / 2 ^ (8 * k.val) % 256) ∧
    (∃ t, exec (.tobytes64 rs1) (completing (.tobytes64 rs1) c s) = .next t ∧
      t = { s with turn := .engine, inflight := none, done := true, bytes := t.bytes } ∧
      ∀ k : Fin 32, t.bytes[k].toNat = val64 c.a % (2 ^ 255 - 19) / 2 ^ (8 * k.val) % 256)

/-- R190: NOP changes nothing but BUSY and DONE. R191: WIPE also zeroes every register and BYTES, and leaves CTRL, ERR,
ERRCODE and LASTCMD alone. -/
def Obligations.NopAndWipeComplete : Prop :=
  ∀ (s : State) (c : Captured),
    exec .nop (completing .nop c s) = .next { s with turn := .engine, inflight := none, done := true } ∧
    (∃ t, exec .wipe (completing .wipe c s) = .next t ∧
      t = { s with turn := .engine, inflight := none, done := true, f := t.f, bytes := t.bytes } ∧
      (∀ (n : RegIdx) (k : Fin 10), (t.getF n)[k] = 0#32) ∧ ∀ k : Fin 32, t.bytes[k] = 0#8)

/-- R111, R30: seen through the window, a completion changes STATUS and its destination and nothing else: the words of
F[rd] for MUL, SQR, MUL121666, INV and FROMBYTES, those of BYTES for TOBYTES, nothing for NOP. -/
def Obligations.CompletionFrameInWindow : Prop :=
  ∀ (s : State) (i : Instr) (c : Captured) (off : Offset), i ≠ .wipe → off.toNat % 4 = 0 → off ≠ 0x008#10 →
    (i.writesF = true → ∀ k : Fin 10, off ≠ BitVec.ofNat 10 (0x100 + 0x40 * i.rd.val + 4 * k.val)) →
    (i.op = .tobytes → ∀ m : Fin 8, off ≠ BitVec.ofNat 10 (0x020 + 4 * m.val)) →
    ∃ t, exec i (completing i c s) = .next t ∧ memRead off t = memRead off s

/-! ### Arithmetic laws -/

/-- R153: every result of MUL, SQR and MUL121666 is the limb form of the value's residue; its limbs are within their
masks and it is admissible under its path. -/
def Obligations.ProductsAreCanonical : Prop :=
  ∀ (s : State) (rd rs1 rs2 : RegIdx) (c : Captured),
    (∀ x ∈ [(Instr.mul32 rd rs1 rs2, val32 c.a * val32 c.b), (.sqr32 rd rs1, val32 c.a * val32 c.a),
        (.mul121666x32 rd rs1, 121666 * val32 c.a)],
      ∃ w, outcomeF (exec x.1 (completing x.1 c s)) rd = some w ∧ val32 w = x.2 % (Config.p : Int) ∧ 0 ≤ val32 w ∧
        val32 w < Config.p ∧ w = radix32 (val32 w).toNat ∧ adm32 w = true ∧
        ∀ k : Fin 10, w[k].toNat ≤ if k.val % 2 = 0 then 0x3ffffff else 0x1ffffff) ∧
    (∀ x ∈ [(Instr.mul64 rd rs1 rs2, val64 c.a * val64 c.b), (.sqr64 rd rs1, val64 c.a * val64 c.a),
        (.mul121666x64 rd rs1, 121666 * val64 c.a)],
      ∃ w, outcomeF (exec x.1 (completing x.1 c s)) rd = some w ∧ val64 w = x.2 % Config.p ∧ val64 w < Config.p ∧
        w = radix64 (val64 w) ∧ adm64 w = true ∧ ∀ k : Fin 5, limb64 w k ≤ 0x7ffffffffffff)

/-- R132: a TOBYTES result is below p, so bit 7 of B[31] is 0, and two operands give one string exactly when they are
congruent mod p. -/
def Obligations.ToBytesIsCanonical : Prop :=
  ∀ (s : State) (rs1 : RegIdx) (c d : Captured) (i : Instr), (i = .tobytes32 rs1 ∨ i = .tobytes64 rs1) →
    ∃ b b', outcomeBytes (exec i (completing i c s)) = some b ∧ outcomeBytes (exec i (completing i d s)) = some b' ∧
      intOfBytes b < Config.p ∧ (b[31]).getLsbD 7 = false ∧
      (b = b' ↔ val i.path c.a ≡ val i.path d.a [ZMOD (Config.p : Int)])

/-- R133: FROMBYTES then TOBYTES of the same register on one path. With bit 255 clear the string comes back exactly when
it is below p, and p to 2^255 - 1 come back less p; with bit 255 set the bit is dropped first. -/
def Obligations.ByteRoundTrip : Prop :=
  ∀ (s : State) (rd : RegIdx) (rest : List Event) (x y : Instr), s.rst = false → s.inflight = none →
    (x = .frombytes32 rd ∧ y = .tobytes32 rd ∨ x = .frombytes64 rd ∧ y = .tobytes64 rd) →
    s.schedule = cmdWriteEvent (encode x) :: .complete :: cmdWriteEvent (encode y) :: .complete :: rest →
    runsTo 4 s fun t =>
      t.err = s.err ∧
      ((s.bytes[31]).getLsbD 7 = false → (t.bytes = s.bytes ↔ intOfBytes s.bytes < Config.p)) ∧
      ((s.bytes[31]).getLsbD 7 = false → Config.p ≤ intOfBytes s.bytes →
        intOfBytes t.bytes = intOfBytes s.bytes - Config.p) ∧
      ((s.bytes[31]).getLsbD 7 = true → intOfBytes s.bytes - 2 ^ 255 < Config.p →
        intOfBytes t.bytes = intOfBytes s.bytes - 2 ^ 255) ∧
      ((s.bytes[31]).getLsbD 7 = true → Config.p ≤ intOfBytes s.bytes - 2 ^ 255 →
        intOfBytes t.bytes = intOfBytes s.bytes - 2 ^ 255 - Config.p)

/-- R134: the two paths agree at the encoding: decoding a string and encoding it again leaves the same BYTES on both,
and TOBYTES.32 and TOBYTES.64 agree exactly on congruent values. -/
def Obligations.PathsAgreeAtTheEncoding : Prop :=
  (∀ (s₁ s₂ : State) (rd : RegIdx) (rest : List Event), s₁.rst = false → s₁.inflight = none →
    s₁.schedule = cmdWriteEvent (encode (.frombytes32 rd)) :: .complete ::
      cmdWriteEvent (encode (.tobytes32 rd)) :: .complete :: rest →
    s₂ = { s₁ with schedule := cmdWriteEvent (encode (.frombytes64 rd)) :: .complete ::
      cmdWriteEvent (encode (.tobytes64 rd)) :: .complete :: rest } →
    runsTo 4 s₁ fun t₁ => runsTo 4 s₂ fun t₂ => t₁.bytes = t₂.bytes) ∧
  (∀ (s : State) (rs1 rs1' : RegIdx) (c d : Captured),
    ∃ b b', outcomeBytes (exec (.tobytes32 rs1) (completing (.tobytes32 rs1) c s)) = some b ∧
      outcomeBytes (exec (.tobytes64 rs1') (completing (.tobytes64 rs1') d s)) = some b' ∧
      (b = b' ↔ val32 c.a ≡ (val64 d.a : Int) [ZMOD (Config.p : Int)]))

/-- R135: TOBYTES on one path then FROMBYTES on the other re-lays a register: it ends as the canonical form of its value
on the other path. -/
def Obligations.PathConversionIsCanonical : Prop :=
  ∀ (s : State) (n : RegIdx) (rest : List Event) (x y : Instr), s.rst = false → s.inflight = none →
    (x = .tobytes32 n ∧ y = .frombytes64 n ∨ x = .tobytes64 n ∧ y = .frombytes32 n) →
    adm x.path (s.getF n) = true →
    s.schedule = cmdWriteEvent (encode x) :: .complete :: cmdWriteEvent (encode y) :: .complete :: rest →
    runsTo 4 s fun t => t.getF n = canon y.path (val x.path (s.getF n))

/-- R154, R183: operands congruent mod p give, on whichever paths, the canonical forms of one residue. -/
def Obligations.PathsAgreeOnArithmetic : Prop :=
  ∀ (s : State) (rd rs1 rs2 : RegIdx) (c d : Captured),
    val32 c.a ≡ (val64 d.a : Int) [ZMOD (Config.p : Int)] → val32 c.b ≡ (val64 d.b : Int) [ZMOD (Config.p : Int)] →
    ∀ x ∈ [(Instr.mul32 rd rs1 rs2, Instr.mul64 rd rs1 rs2), (.sqr32 rd rs1, .sqr64 rd rs1),
        (.mul121666x32 rd rs1, .mul121666x64 rd rs1), (.inv32 rd rs1, .inv64 rd rs1)],
      ∃ v, v < Config.p ∧ outcomeF (exec x.1 (completing x.1 c s)) rd = some (radix32 v) ∧
        outcomeF (exec x.2 (completing x.2 d s)) rd = some (radix64 v)

/-- R155: MUL commutes and associates, value 1 gives the other operand's canonical form, MUL distributes over addition
of values, and MUL121666 is MUL by a register of value 121666. -/
def Obligations.MulAlgebra : Prop :=
  ∀ (s : State) (rd rs1 rs2 : RegIdx) (mul : Instr) (m24 : Instr),
    (mul = .mul32 rd rs1 rs2 ∧ m24 = .mul121666x32 rd rs1 ∨ mul = .mul64 rd rs1 rs2 ∧ m24 = .mul121666x64 rd rs1) →
    ∃ prod : FReg → FReg → FReg,
      (∀ (a b : FReg) (x : ByteString), outcomeF (exec mul (completing mul ⟨a, b, x⟩ s)) rd = some (prod a b)) ∧
      (∀ a b, prod a b = prod b a) ∧
      (∀ a b c, prod (prod a b) c = prod a (prod b c)) ∧
      (∀ a b, val mul.path b = 1 → prod a b = canon mul.path (val mul.path a)) ∧
      (∀ a b c d, val mul.path d ≡ val mul.path b + val mul.path c [ZMOD (Config.p : Int)] →
        val mul.path (prod a d) ≡ val mul.path (prod a b) + val mul.path (prod a c) [ZMOD (Config.p : Int)]) ∧
      (∀ a b (c : Captured), val mul.path b = 121666 →
        outcomeF (exec m24 (completing m24 ⟨a, c.b, c.x⟩ s)) rd = some (prod a b))

/-- R181: MUL of an operand and its INV is 1 when the operand is not 0 mod p, and 0 when it is. -/
def Obligations.InvTimesOperandIsOne : Prop :=
  ∀ (s : State) (rd rs1 rs2 : RegIdx) (a : FReg) (inv mul : Instr),
    (inv = .inv32 rd rs1 ∧ mul = .mul32 rd rs1 rs2 ∨ inv = .inv64 rd rs1 ∧ mul = .mul64 rd rs1 rs2) →
    ∃ y, outcomeF (exec inv (completing inv ⟨a, zeroReg, zeroBytes⟩ s)) rd = some y ∧
      outcomeF (exec mul (completing mul ⟨a, y, zeroBytes⟩ s)) rd =
        some (radix inv.path (if (Config.p : Int) ∣ val inv.path a then 0 else 1))

/-- R156: the column sums of the informative datapath, put back at their positions, are the product mod p, so they lead
to the register MUL leaves; with admissible operands every column fits its accumulator. -/
def Obligations.ColumnSumsGiveTheProduct : Prop :=
  (∀ (s : State) (rd rs1 rs2 : RegIdx) (c : Captured),
    columnSum .limb32 c.a c.b ≡ val32 c.a * val32 c.b [ZMOD (Config.p : Int)] ∧
    columnSum .limb64 c.a c.b ≡ (val64 c.a : Int) * val64 c.b [ZMOD (Config.p : Int)] ∧
    outcomeF (exec (.mul32 rd rs1 rs2) (completing (.mul32 rd rs1 rs2) c s)) rd =
      some (canon .limb32 (columnSum .limb32 c.a c.b)) ∧
    outcomeF (exec (.mul64 rd rs1 rs2) (completing (.mul64 rd rs1 rs2) c s)) rd =
      some (canon .limb64 (columnSum .limb64 c.a c.b))) ∧
  (∀ (a b : FReg) (k : Fin 10), adm32 a = true → adm32 b = true →
    |column32 a b k| < 380 * 2 ^ 54 ∧ |column32 a b k| < 2 ^ 63) ∧
  (∀ (a b : FReg) (k : Fin 5), adm64 a = true → adm64 b = true →
    column64 a b k < 95 * 2 ^ 108 ∧ column64 a b k < 2 ^ 115)

/-! ### Whole-machine rules -/

/-- R192: no step changes a register but the completion of a command that writes it, WIPE's, a host write to it with no
command in flight, and a reset. That the assertion of `rst` leaves the registers, and they are cleared at its release, is
the model's choice (log entry 4). -/
def Obligations.RegistersChangeOnlyAsAllowed : Prop :=
  ∀ (s t : State) (n : RegIdx), step s = .next t → t.getF n ≠ s.getF n →
    (s.nextIsEngine = true ∧ ∃ r, s.inflight = some r ∧ t.inflight = none ∧
      (r.cmd = .wipe ∨ r.cmd.writesF = true ∧ r.cmd.rd = n)) ∨
    (s.inflight = none ∧ ∃ (k : Fin 10) (v : Word) (rest : List Event),
      s.schedule = .access (.write (BitVec.ofNat 10 (0x100 + 0x40 * n.val + 4 * k.val)) .word v) :: rest) ∨
    s.nextIsReset = true

/-- R37, R192: no step changes BYTES but the completion of TOBYTES or WIPE, a host write to it with no command in
flight, and a reset. That the assertion of `rst` leaves BYTES, and it is cleared at its release, is the model's choice
(log entry 4). -/
def Obligations.BytesChangeOnlyAsAllowed : Prop :=
  ∀ s t : State, step s = .next t → t.bytes ≠ s.bytes →
    (s.nextIsEngine = true ∧ ∃ r, s.inflight = some r ∧ t.inflight = none ∧
      (r.cmd = .wipe ∨ r.cmd.op = .tobytes)) ∨
    (s.inflight = none ∧ ∃ (m : Fin 8) (v : Word) (rest : List Event),
      s.schedule = .access (.write (BitVec.ofNat 10 (0x020 + 4 * m.val)) .word v) :: rest) ∨
    s.nextIsReset = true

/-- R41, R110: LASTCMD changes only to the word of a command accepted in that step, and by a reset; and a command that is
accepted leaves its word there. That the assertion of `rst` leaves LASTCMD, and it is cleared at its release, is the model's
choice (log entry 4). -/
def Obligations.LastCmdIsLastAcceptedWord : Prop :=
  (∀ s t : State, step s = .next t → t.lastCmd ≠ s.lastCmd →
    (∃ c i rest, s.schedule = .access (.write 0x00C#10 .word c) :: rest ∧ decode c = .ok i ∧ s.inflight = none ∧
      t.inflight.map (·.cmd) = some i ∧ t.lastCmd = c) ∨
    s.nextIsReset = true) ∧
  (∀ (s : State) (c : Word) (i : Instr) (rest : List Event), s.rst = false → s.inflight = none →
    s.schedule = .access (.write 0x00C#10 .word c) :: rest → decode c = .ok i → operandsAdmissible i s = true →
    ∃ t, step s = .next t ∧ t.inflight.map (·.cmd) = some i ∧ t.lastCmd = c)

/-- R111, R208, D36: DONE rises only with a completion, and falls only by a STATUS write with bit 1 = 1 or a reset;
never by a new issue. That the assertion of `rst` leaves it, and it is cleared at its release, is the model's choice (log
entry 4). -/
def Obligations.DoneRisesOnlyByCompletion : Prop :=
  ∀ s t : State, step s = .next t →
    (s.done = false → t.done = true → s.nextIsEngine = true ∧ (∃ r, s.inflight = some r) ∧ t.inflight = none) ∧
    (s.done = true → t.done = false →
      (∃ v rest, s.schedule = .access (.write 0x008#10 .word v) :: rest ∧ v.getLsbD 1 = true) ∨
        s.nextIsReset = true)

/-- R42, R110, R111: the record in flight stays as captured until its completion or a reset; one appears only on an idle
block. -/
def Obligations.InFlightStaysAsCaptured : Prop :=
  ∀ s t : State, step s = .next t →
    (∀ r, s.inflight = some r → t.inflight = some r ∨ t.inflight = none ∧
      (s.nextIsEngine = true ∧ t.done = true ∨ s.nextIsReset = true ∨ ∃ rest, s.schedule = .rst true :: rest)) ∧
    (∀ r, s.inflight = none → t.inflight = some r →
      operandsAdmissible r.cmd s = true ∧ t.lastCmd = encode r.cmd ∧ t.f = s.f ∧ t.bytes = s.bytes)

/-- R250, R212: in two states that differ only in registers, BYTES, captured operands and read data, a step does the same
to everything else; only whether the operands of a command being issued are admissible may tell them apart. -/
def Obligations.ControlIgnoresOperandValues : Prop :=
  ∀ s₁ s₂ t₁ : State, s₁.control = s₂.control →
    (∀ c i rest, s₁.schedule = .access (.write 0x00C#10 .word c) :: rest → decode c = .ok i →
      operandsAdmissible i s₁ = operandsAdmissible i s₂) →
    step s₁ = .next t₁ → ∃ t₂, step s₂ = .next t₂ ∧ t₁.control = t₂.control

/-- R112, R110: once accepted, a command reaches its completion, after no more steps than there are events to come, if
nothing resets the block or stops the run; until then the record, the registers and BYTES stay. That the engine takes its
turn once no event is left is the model's choice (log entry 1). -/
def Obligations.AcceptedCommandCompletes : Prop :=
  ∀ (s : State) (r : InFlight), s.rst = false → s.inflight = some r → (∀ e ∈ s.schedule, e.keepsCommand = true) →
    ∃ k u, k ≤ s.schedule.length ∧ Sys2Proof.core.run k s = .next u ∧ u.inflight = some r ∧ u.f = s.f ∧
      u.bytes = s.bytes ∧ ∃ t, step u = .next t ∧ t.inflight = none ∧ t.done = true

/-- R81, R107, R248: every STATUS read of a `wait` before the completion shows BUSY = 1 and the old registers, the one
after it BUSY = 0 and what the command leaves. -/
def Obligations.WaitSeesTheCompletion : Prop :=
  ∀ (s : State) (r : InFlight) (k : Nat) (rest : List Event), s.rst = false → s.inflight = some r →
    s.schedule = waitEvents k ++ rest →
    (∀ j, j < k → runsTo (j + 1) s fun u =>
      u.f = s.f ∧ u.bytes = s.bytes ∧ ∃ w, u.resp = .data w ∧ waitRepeats w = true) ∧
    runsTo (k + 2) s fun t =>
      t.inflight = none ∧ t.done = true ∧ t.schedule = rest ∧ (∃ w, t.resp = .data w ∧ waitRepeats w = false) ∧
      outcomeBytes (exec r.cmd { s with turn := .engine }) = some t.bytes ∧
      ∀ n : RegIdx, outcomeF (exec r.cmd { s with turn := .engine }) n = some (t.getF n)

/-- R109, R110, R111: `run` of any command, with admissible operands on an idle block, ends with the effect its `exec`
has on the operands as they were at issue, whichever registers coincide and however many reads come before the completion;
everything but the destination, DONE and LASTCMD is as before. -/
def Obligations.EveryCommandRunsEndToEnd : Prop :=
  ∀ (s : State) (i : Instr) (k : Nat) (rest : List Event), s.rst = false → s.inflight = none →
    operandsAdmissible i s = true → s.schedule = runEvents i k ++ rest →
    runsTo (k + 3) s fun t =>
      outcomeBytes (exec i (completing i (operandsOf i s) s)) = some t.bytes ∧
      (∀ n : RegIdx, outcomeF (exec i (completing i (operandsOf i s) s)) n = some (t.getF n)) ∧
      t = { s with
        f := t.f, bytes := t.bytes, done := true, lastCmd := encode i, turn := .host, resp := t.resp,
        schedule := rest } ∧
      ∃ w, t.resp = .data w ∧ waitRepeats w = false
end

