-- ==== Sys2Proof/Laws/State.lean ====
section
/-! SUPPORT. One lemma per field per update of the state, so that no later proof unfolds an update. -/

namespace Sys2Proof.Machine

@[simp] theorem setF_f (s : State) (n : RegIdx) (w : FReg) : (s.setF n w).f = s.f.set n w := rfl
@[simp] theorem setF_bytes (s : State) (n : RegIdx) (w : FReg) : (s.setF n w).bytes = s.bytes := rfl
@[simp] theorem setF_irqEn (s : State) (n : RegIdx) (w : FReg) : (s.setF n w).irqEn = s.irqEn := rfl
@[simp] theorem setF_done (s : State) (n : RegIdx) (w : FReg) : (s.setF n w).done = s.done := rfl
@[simp] theorem setF_err (s : State) (n : RegIdx) (w : FReg) : (s.setF n w).err = s.err := rfl
@[simp] theorem setF_errCode (s : State) (n : RegIdx) (w : FReg) : (s.setF n w).errCode = s.errCode := rfl
@[simp] theorem setF_lastCmd (s : State) (n : RegIdx) (w : FReg) : (s.setF n w).lastCmd = s.lastCmd := rfl
@[simp] theorem setF_inflight (s : State) (n : RegIdx) (w : FReg) : (s.setF n w).inflight = s.inflight := rfl
@[simp] theorem setF_rst (s : State) (n : RegIdx) (w : FReg) : (s.setF n w).rst = s.rst := rfl
@[simp] theorem setF_turn (s : State) (n : RegIdx) (w : FReg) : (s.setF n w).turn = s.turn := rfl
@[simp] theorem setF_resp (s : State) (n : RegIdx) (w : FReg) : (s.setF n w).resp = s.resp := rfl
@[simp] theorem setF_schedule (s : State) (n : RegIdx) (w : FReg) : (s.setF n w).schedule = s.schedule := rfl

@[simp] theorem setFWord_f (s : State) (n : RegIdx) (k : Fin 10) (v : Word) : (s.setFWord n k v).f = s.f.set n ((s.getF n).set k v) := rfl
@[simp] theorem setFWord_bytes (s : State) (n : RegIdx) (k : Fin 10) (v : Word) : (s.setFWord n k v).bytes = s.bytes := rfl
@[simp] theorem setFWord_irqEn (s : State) (n : RegIdx) (k : Fin 10) (v : Word) : (s.setFWord n k v).irqEn = s.irqEn := rfl
@[simp] theorem setFWord_done (s : State) (n : RegIdx) (k : Fin 10) (v : Word) : (s.setFWord n k v).done = s.done := rfl
@[simp] theorem setFWord_err (s : State) (n : RegIdx) (k : Fin 10) (v : Word) : (s.setFWord n k v).err = s.err := rfl
@[simp] theorem setFWord_errCode (s : State) (n : RegIdx) (k : Fin 10) (v : Word) : (s.setFWord n k v).errCode = s.errCode := rfl
@[simp] theorem setFWord_lastCmd (s : State) (n : RegIdx) (k : Fin 10) (v : Word) : (s.setFWord n k v).lastCmd = s.lastCmd := rfl
@[simp] theorem setFWord_inflight (s : State) (n : RegIdx) (k : Fin 10) (v : Word) : (s.setFWord n k v).inflight = s.inflight := rfl
@[simp] theorem setFWord_rst (s : State) (n : RegIdx) (k : Fin 10) (v : Word) : (s.setFWord n k v).rst = s.rst := rfl
@[simp] theorem setFWord_turn (s : State) (n : RegIdx) (k : Fin 10) (v : Word) : (s.setFWord n k v).turn = s.turn := rfl
@[simp] theorem setFWord_resp (s : State) (n : RegIdx) (k : Fin 10) (v : Word) : (s.setFWord n k v).resp = s.resp := rfl
@[simp] theorem setFWord_schedule (s : State) (n : RegIdx) (k : Fin 10) (v : Word) : (s.setFWord n k v).schedule = s.schedule := rfl

@[simp] theorem setBytes_f (s : State) (b : ByteString) : (s.setBytes b).f = s.f := rfl
@[simp] theorem setBytes_bytes (s : State) (b : ByteString) : (s.setBytes b).bytes = b := rfl
@[simp] theorem setBytes_irqEn (s : State) (b : ByteString) : (s.setBytes b).irqEn = s.irqEn := rfl
@[simp] theorem setBytes_done (s : State) (b : ByteString) : (s.setBytes b).done = s.done := rfl
@[simp] theorem setBytes_err (s : State) (b : ByteString) : (s.setBytes b).err = s.err := rfl
@[simp] theorem setBytes_errCode (s : State) (b : ByteString) : (s.setBytes b).errCode = s.errCode := rfl
@[simp] theorem setBytes_lastCmd (s : State) (b : ByteString) : (s.setBytes b).lastCmd = s.lastCmd := rfl
@[simp] theorem setBytes_inflight (s : State) (b : ByteString) : (s.setBytes b).inflight = s.inflight := rfl
@[simp] theorem setBytes_rst (s : State) (b : ByteString) : (s.setBytes b).rst = s.rst := rfl
@[simp] theorem setBytes_turn (s : State) (b : ByteString) : (s.setBytes b).turn = s.turn := rfl
@[simp] theorem setBytes_resp (s : State) (b : ByteString) : (s.setBytes b).resp = s.resp := rfl
@[simp] theorem setBytes_schedule (s : State) (b : ByteString) : (s.setBytes b).schedule = s.schedule := rfl

@[simp] theorem accept_f (i : Instr) (c : Captured) (s : State) : (accept i c s).f = s.f := rfl
@[simp] theorem accept_bytes (i : Instr) (c : Captured) (s : State) : (accept i c s).bytes = s.bytes := rfl
@[simp] theorem accept_irqEn (i : Instr) (c : Captured) (s : State) : (accept i c s).irqEn = s.irqEn := rfl
@[simp] theorem accept_done (i : Instr) (c : Captured) (s : State) : (accept i c s).done = s.done := rfl
@[simp] theorem accept_err (i : Instr) (c : Captured) (s : State) : (accept i c s).err = s.err := rfl
@[simp] theorem accept_errCode (i : Instr) (c : Captured) (s : State) : (accept i c s).errCode = s.errCode := rfl
@[simp] theorem accept_lastCmd (i : Instr) (c : Captured) (s : State) : (accept i c s).lastCmd = encode i := rfl
@[simp] theorem accept_inflight (i : Instr) (c : Captured) (s : State) : (accept i c s).inflight = some ⟨i, c⟩ := rfl
@[simp] theorem accept_rst (i : Instr) (c : Captured) (s : State) : (accept i c s).rst = s.rst := rfl
@[simp] theorem accept_turn (i : Instr) (c : Captured) (s : State) : (accept i c s).turn = s.turn := rfl
@[simp] theorem accept_resp (i : Instr) (c : Captured) (s : State) : (accept i c s).resp = s.resp := rfl
@[simp] theorem accept_schedule (i : Instr) (c : Captured) (s : State) : (accept i c s).schedule = s.schedule := rfl

@[simp] theorem retire_f (s : State) : (retire s).f = s.f := rfl
@[simp] theorem retire_bytes (s : State) : (retire s).bytes = s.bytes := rfl
@[simp] theorem retire_irqEn (s : State) : (retire s).irqEn = s.irqEn := rfl
@[simp] theorem retire_done (s : State) : (retire s).done = true := rfl
@[simp] theorem retire_err (s : State) : (retire s).err = s.err := rfl
@[simp] theorem retire_errCode (s : State) : (retire s).errCode = s.errCode := rfl
@[simp] theorem retire_lastCmd (s : State) : (retire s).lastCmd = s.lastCmd := rfl
@[simp] theorem retire_inflight (s : State) : (retire s).inflight = none := rfl
@[simp] theorem retire_rst (s : State) : (retire s).rst = s.rst := rfl
@[simp] theorem retire_turn (s : State) : (retire s).turn = s.turn := rfl
@[simp] theorem retire_resp (s : State) : (retire s).resp = s.resp := rfl
@[simp] theorem retire_schedule (s : State) : (retire s).schedule = s.schedule := rfl

@[simp] theorem softReset_f (s : State) : (softReset s).f = State.reset.f := rfl
@[simp] theorem softReset_bytes (s : State) : (softReset s).bytes = State.reset.bytes := rfl
@[simp] theorem softReset_irqEn (s : State) : (softReset s).irqEn = State.reset.irqEn := rfl
@[simp] theorem softReset_done (s : State) : (softReset s).done = State.reset.done := rfl
@[simp] theorem softReset_err (s : State) : (softReset s).err = State.reset.err := rfl
@[simp] theorem softReset_errCode (s : State) : (softReset s).errCode = State.reset.errCode := rfl
@[simp] theorem softReset_lastCmd (s : State) : (softReset s).lastCmd = State.reset.lastCmd := rfl
@[simp] theorem softReset_inflight (s : State) : (softReset s).inflight = State.reset.inflight := rfl
@[simp] theorem softReset_rst (s : State) : (softReset s).rst = s.rst := rfl
@[simp] theorem softReset_turn (s : State) : (softReset s).turn = s.turn := rfl
@[simp] theorem softReset_resp (s : State) : (softReset s).resp = s.resp := rfl
@[simp] theorem softReset_schedule (s : State) : (softReset s).schedule = s.schedule := rfl

@[simp] theorem writeStatus_f (v : Word) (s : State) : (writeStatus v s).f = s.f := rfl
@[simp] theorem writeStatus_bytes (v : Word) (s : State) : (writeStatus v s).bytes = s.bytes := rfl
@[simp] theorem writeStatus_irqEn (v : Word) (s : State) : (writeStatus v s).irqEn = s.irqEn := rfl
@[simp] theorem writeStatus_done (v : Word) (s : State) : (writeStatus v s).done = (s.done && !v.getLsbD 1) := rfl
@[simp] theorem writeStatus_err (v : Word) (s : State) : (writeStatus v s).err = (s.err && !v.getLsbD 2) := rfl
@[simp] theorem writeStatus_errCode (v : Word) (s : State) : (writeStatus v s).errCode = if v.getLsbD 2 then 0#4 else s.errCode := rfl
@[simp] theorem writeStatus_lastCmd (v : Word) (s : State) : (writeStatus v s).lastCmd = s.lastCmd := rfl
@[simp] theorem writeStatus_inflight (v : Word) (s : State) : (writeStatus v s).inflight = s.inflight := rfl
@[simp] theorem writeStatus_rst (v : Word) (s : State) : (writeStatus v s).rst = s.rst := rfl
@[simp] theorem writeStatus_turn (v : Word) (s : State) : (writeStatus v s).turn = s.turn := rfl
@[simp] theorem writeStatus_resp (v : Word) (s : State) : (writeStatus v s).resp = s.resp := rfl
@[simp] theorem writeStatus_schedule (v : Word) (s : State) : (writeStatus v s).schedule = s.schedule := rfl

@[simp] theorem raiseErr_f (e : Err) (s : State) : (raiseErr e s).f = s.f := by
  unfold raiseErr; split <;> rfl
@[simp] theorem raiseErr_bytes (e : Err) (s : State) : (raiseErr e s).bytes = s.bytes := by
  unfold raiseErr; split <;> rfl
@[simp] theorem raiseErr_irqEn (e : Err) (s : State) : (raiseErr e s).irqEn = s.irqEn := by
  unfold raiseErr; split <;> rfl
@[simp] theorem raiseErr_done (e : Err) (s : State) : (raiseErr e s).done = s.done := by
  unfold raiseErr; split <;> rfl
@[simp] theorem raiseErr_err (e : Err) (s : State) : (raiseErr e s).err = true := by
  unfold raiseErr; split <;> simp_all
@[simp] theorem raiseErr_errCode (e : Err) (s : State) :
    (raiseErr e s).errCode = if s.err then s.errCode else e.code := by
  unfold raiseErr; split <;> rfl
@[simp] theorem raiseErr_lastCmd (e : Err) (s : State) : (raiseErr e s).lastCmd = s.lastCmd := by
  unfold raiseErr; split <;> rfl
@[simp] theorem raiseErr_inflight (e : Err) (s : State) : (raiseErr e s).inflight = s.inflight := by
  unfold raiseErr; split <;> rfl
@[simp] theorem raiseErr_rst (e : Err) (s : State) : (raiseErr e s).rst = s.rst := by
  unfold raiseErr; split <;> rfl
@[simp] theorem raiseErr_turn (e : Err) (s : State) : (raiseErr e s).turn = s.turn := by
  unfold raiseErr; split <;> rfl
@[simp] theorem raiseErr_resp (e : Err) (s : State) : (raiseErr e s).resp = s.resp := by
  unfold raiseErr; split <;> rfl
@[simp] theorem raiseErr_schedule (e : Err) (s : State) : (raiseErr e s).schedule = s.schedule := by
  unfold raiseErr; split <;> rfl

theorem raiseErr_eq (e : Err) (s : State) :
    raiseErr e s = { s with err := true, errCode := if s.err then s.errCode else e.code } := by
  unfold raiseErr; split
  · rename_i h; rw [← h]
  · rfl

/-! BUSY looks at INFLIGHT alone. -/

theorem busy_eq (s : State) : s.busy = s.inflight.isSome := rfl

theorem busy_iff (s : State) : s.busy = true ↔ ∃ r, s.inflight = some r := by
  simp [State.busy, Option.isSome_iff_exists]

theorem not_busy_iff (s : State) : s.busy = false ↔ s.inflight = none := by
  simp [State.busy]

/-! Registers after a write. -/

theorem getF_setF (s : State) (n m : RegIdx) (w : FReg) :
    (s.setF n w).getF m = if m = n then w else s.getF m := by
  simp only [State.getF, setF_f, Fin.getElem_fin, Vector.getElem_set, Fin.ext_iff, eq_comm]

@[simp] theorem getF_setF_same (s : State) (n : RegIdx) (w : FReg) : (s.setF n w).getF n = w := by
  rw [getF_setF, if_pos rfl]

theorem getF_setFWord (s : State) (n m : RegIdx) (k j : Fin 10) (v : Word) :
    ((s.setFWord n k v).getF m)[j] = if m = n ∧ j = k then v else (s.getF m)[j] := by
  rw [State.setFWord, getF_setF]
  by_cases h : m = n
  · subst h
    simp only [if_true, true_and, Fin.getElem_fin, Vector.getElem_set, Fin.ext_iff, eq_comm]
  · simp only [h, if_false, false_and]

/-- `getF` looks at the registers alone. -/
theorem getF_congr {s t : State} (h : s.f = t.f) (n : RegIdx) : s.getF n = t.getF n := by
  rw [State.getF, State.getF, h]

/-- Two register files with the same registers are the same. -/
theorem f_ext {s t : State} (h : ∀ n, s.getF n = t.getF n) : s.f = t.f := by
  ext n hn : 1
  exact h ⟨n, hn⟩

@[simp] theorem getF_reset (n : RegIdx) : State.reset.getF n = zeroReg := by
  revert n; decide

end Sys2Proof.Machine
end

