-- ==== Sys2Proof/Laws/Ops.lean ====
section
/-! SUPPORT. What the shared procedures of a command can do: issue (R110), completion (R111), and `exec` as one
instance of them per command. -/

namespace Sys2Proof.Machine

/-! The fields of the states claims are stated with. -/

@[simp] theorem answered_f (s : State) (rest : List Event) (r : BusResp) : (s.answered rest r).f = s.f := rfl
@[simp] theorem answered_bytes (s : State) (rest : List Event) (r : BusResp) : (s.answered rest r).bytes = s.bytes := rfl
@[simp] theorem answered_irqEn (s : State) (rest : List Event) (r : BusResp) : (s.answered rest r).irqEn = s.irqEn := rfl
@[simp] theorem answered_done (s : State) (rest : List Event) (r : BusResp) : (s.answered rest r).done = s.done := rfl
@[simp] theorem answered_err (s : State) (rest : List Event) (r : BusResp) : (s.answered rest r).err = s.err := rfl
@[simp] theorem answered_errCode (s : State) (rest : List Event) (r : BusResp) : (s.answered rest r).errCode = s.errCode := rfl
@[simp] theorem answered_lastCmd (s : State) (rest : List Event) (r : BusResp) : (s.answered rest r).lastCmd = s.lastCmd := rfl
@[simp] theorem answered_inflight (s : State) (rest : List Event) (r : BusResp) : (s.answered rest r).inflight = s.inflight := rfl
@[simp] theorem answered_rst (s : State) (rest : List Event) (r : BusResp) : (s.answered rest r).rst = s.rst := rfl
@[simp] theorem answered_turn (s : State) (rest : List Event) (r : BusResp) : (s.answered rest r).turn = .host := rfl
@[simp] theorem answered_resp (s : State) (rest : List Event) (r : BusResp) : (s.answered rest r).resp = r := rfl
@[simp] theorem answered_schedule (s : State) (rest : List Event) (r : BusResp) : (s.answered rest r).schedule = rest := rfl

@[simp] theorem getF_answered (s : State) (rest : List Event) (r : BusResp) (n : RegIdx) :
    (s.answered rest r).getF n = s.getF n := rfl

/-- Reporting an error, as a claim says it (R202). -/
theorem raiseErr_eq_withError (e : Err) (s : State) : raiseErr e s = s.withError e.code := raiseErr_eq e s

/-- What a command captures at issue. -/
def captureOf (i : Instr) : State → Except Err Captured :=
  match i.op with
  | .nop | .wipe => captureNothing
  | .mul => captureTwo i.path i.rs1 i.rs2
  | .sqr | .mul121666 | .inv | .tobytes => captureOne i.path i.rs1
  | .frombytes => captureBytes

/-- What a command writes at completion. -/
def performOf (i : Instr) : Captured → State → State :=
  match i.op with
  | .nop => performNop
  | .mul => performMul i.path i.rd
  | .sqr => performSqr i.path i.rd
  | .mul121666 => performMul121666 i.path i.rd
  | .inv => performInv i.path i.rd
  | .frombytes => performFromBytes i.path i.rd
  | .tobytes => performToBytes i.path
  | .wipe => performWipe

/-- Every arm of `exec` is the shared command procedure with the command's own capture and effect. -/
theorem exec_eq_command (i : Instr) (s : State) : exec i s = command i (captureOf i) (performOf i) s := by
  cases i <;> rfl

theorem command_host {i : Instr} {cap : State → Except Err Captured} {perform : Captured → State → State} {s : State}
    (h : s.turn = .host) : command i cap perform s = .next (issue i cap s) := by
  simp only [command, h]

theorem command_engine {i : Instr} {cap : State → Except Err Captured} {perform : Captured → State → State}
    {s : State} (h : s.turn = .engine) : command i cap perform s = .next (complete i perform s) := by
  simp only [command, h]

theorem exec_host {i : Instr} {s : State} (h : s.turn = .host) : exec i s = .next (issue i (captureOf i) s) := by
  rw [exec_eq_command, command_host h]

theorem exec_engine {i : Instr} {s : State} (h : s.turn = .engine) :
    exec i s = .next (complete i (performOf i) s) := by
  rw [exec_eq_command, command_engine h]

/-- Everything `issue` can do (R110): reject a command that finds the block busy, reject one whose capture fails, accept
the rest. -/
theorem issue_cases (i : Instr) (cap : State → Except Err Captured) (s : State) :
    (s.busy = true ∧ issue i cap s = raiseErr .cmdWhileBusy s) ∨
      (s.busy = false ∧ ∃ e, cap s = .error e ∧ issue i cap s = raiseErr e s) ∨
      (s.busy = false ∧ ∃ c, cap s = .ok c ∧ issue i cap s = accept i c s) := by
  unfold issue
  cases hb : s.busy
  · cases hc : cap s with
    | error e => exact .inr (.inl ⟨rfl, e, rfl, by simp⟩)
    | ok c => exact .inr (.inr ⟨rfl, c, rfl, by simp⟩)
  · exact .inl ⟨rfl, by simp⟩

theorem issue_busy {i : Instr} {cap : State → Except Err Captured} {s : State} (h : s.busy = true) :
    issue i cap s = raiseErr .cmdWhileBusy s := by
  simp only [issue, h, if_true]

theorem issue_ok {i : Instr} {cap : State → Except Err Captured} {s : State} {c : Captured} (h : s.busy = false)
    (hc : cap s = .ok c) : issue i cap s = accept i c s := by
  simp [issue, h, hc]

theorem issue_error {i : Instr} {cap : State → Except Err Captured} {s : State} {e : Err} (h : s.busy = false)
    (hc : cap s = .error e) : issue i cap s = raiseErr e s := by
  simp [issue, h, hc]

/-- The completion of the command in flight (R111). -/
theorem complete_inflight {i : Instr} {perform : Captured → State → State} {s : State} {c : Captured}
    (h : s.inflight = some ⟨i, c⟩) : complete i perform s = retire (perform c s) := by
  simp only [complete, h, if_true]

/-- The capture of a command succeeds exactly when its operands are admissible, and else says OPERAND_RANGE. -/
theorem captureOf_admissible {i : Instr} {s : State} (h : operandsAdmissible i s = true) :
    ∃ c, captureOf i s = .ok c ∧ InFlight.wellFormed ⟨i, c⟩ = true := by
  cases i <;>
    simp_all [captureOf, operandsAdmissible, captureNothing, captureOne, captureTwo, captureBytes,
      InFlight.wellFormed, Instr.op, Captured.zero, Instr.path, Instr.rs1, Instr.rs2]

/-- What the capture holds is what the command reads. -/
theorem captureOf_eq {i : Instr} {s : State} (h : operandsAdmissible i s = true) :
    captureOf i s = .ok (operandsOf i s) := by
  cases i <;>
    simp_all [captureOf, operandsAdmissible, operandsOf, captureNothing, captureOne, captureTwo, captureBytes, Instr.op,
      Captured.zero, Instr.path, Instr.rs1, Instr.rs2]

theorem captureOne_inadmissible {path : Path} {rs1 : RegIdx} {s : State} (h : adm path (s.getF rs1) = false) :
    captureOne path rs1 s = .error .operandRange := by
  simp [captureOne, h]

theorem captureTwo_inadmissible {path : Path} {rs1 rs2 : RegIdx} {s : State}
    (h : (adm path (s.getF rs1) && adm path (s.getF rs2)) = false) :
    captureTwo path rs1 rs2 s = .error .operandRange := by
  cases h1 : adm path (s.getF rs1)
  · simp [captureTwo, captureOne_inadmissible h1]
  · have h2 : adm path (s.getF rs2) = false := by simpa [h1] using h
    simp [captureTwo, captureOne, h1, h2]

theorem captureOf_inadmissible {i : Instr} {s : State} (h : operandsAdmissible i s = false) :
    captureOf i s = .error .operandRange := by
  cases i <;>
    first
    | exact captureTwo_inadmissible h
    | exact captureOne_inadmissible h
    | exact absurd h Bool.true_eq_false.mp

theorem setF_control (s : State) (n : RegIdx) (w : FReg) :
    s.setF n w = { s with f := (s.setF n w).f, bytes := (s.setF n w).bytes } := rfl

theorem setBytes_control (s : State) (b : ByteString) :
    s.setBytes b = { s with f := (s.setBytes b).f, bytes := (s.setBytes b).bytes } := rfl

/-- What a command's effect leaves alone: everything but the registers and BYTES. -/
theorem performOf_control (i : Instr) (c : Captured) (s : State) :
    performOf i c s = { s with f := (performOf i c s).f, bytes := (performOf i c s).bytes } := by
  cases i <;> first | exact setF_control .. | exact setBytes_control .. | rfl

/-- A command that is in flight with these operands completes at the engine's turn (R111). -/
theorem exec_completing (i : Instr) (c : Captured) (s : State) :
    exec i (completing i c s) = .next (retire (performOf i c (completing i c s))) := by
  rw [exec_engine rfl, complete_inflight (c := c) rfl]

theorem performOf_frombytes {i : Instr} (h : i.op = .frombytes) : performOf i = performFromBytes i.path i.rd := by
  rw [performOf, h]

theorem performOf_tobytes {i : Instr} (h : i.op = .tobytes) : performOf i = performToBytes i.path := by
  rw [performOf, h]

theorem performOf_mul {i : Instr} (h : i.op = .mul) : performOf i = performMul i.path i.rd := by
  rw [performOf, h]

/-- A command that is no TOBYTES and no WIPE leaves BYTES alone. -/
theorem performOf_bytes {i : Instr} (h1 : i.op ≠ .tobytes) (h2 : i.op ≠ .wipe) (c : Captured) (s : State) :
    (performOf i c s).bytes = s.bytes := by
  unfold performOf
  cases h : i.op <;> first | exact absurd h h1 | exact absurd h h2 | rfl

/-- A command that writes a register writes one value to it, and no other register. -/
theorem performOf_writesF {i : Instr} (h : i.writesF = true) (c : Captured) (s : State) :
    ∃ w, performOf i c s = s.setF i.rd w := by
  unfold performOf
  cases ho : i.op <;> first | (simp [Instr.writesF, ho] at h; done) | exact ⟨_, rfl⟩

/-- A command that writes no register and is no WIPE leaves the registers alone. -/
theorem performOf_f {i : Instr} (h : i.writesF = false) (h2 : i.op ≠ .wipe) (c : Captured) (s : State) :
    (performOf i c s).f = s.f := by
  unfold performOf
  cases ho : i.op with
  | nop => rfl
  | wipe => exact absurd ho h2
  | tobytes => exact setBytes_f _ _
  | mul | sqr | mul121666 | inv | frombytes => simp [Instr.writesF, ho] at h

@[simp] theorem performOf_irqEn (i : Instr) (c : Captured) (s : State) : (performOf i c s).irqEn = s.irqEn := by
  rw [performOf_control]
@[simp] theorem performOf_done (i : Instr) (c : Captured) (s : State) : (performOf i c s).done = s.done := by
  rw [performOf_control]
@[simp] theorem performOf_err (i : Instr) (c : Captured) (s : State) : (performOf i c s).err = s.err := by
  rw [performOf_control]
@[simp] theorem performOf_errCode (i : Instr) (c : Captured) (s : State) : (performOf i c s).errCode = s.errCode := by
  rw [performOf_control]
@[simp] theorem performOf_lastCmd (i : Instr) (c : Captured) (s : State) : (performOf i c s).lastCmd = s.lastCmd := by
  rw [performOf_control]
@[simp] theorem performOf_inflight (i : Instr) (c : Captured) (s : State) : (performOf i c s).inflight = s.inflight := by
  rw [performOf_control]
@[simp] theorem performOf_rst (i : Instr) (c : Captured) (s : State) : (performOf i c s).rst = s.rst := by
  rw [performOf_control]
@[simp] theorem performOf_turn (i : Instr) (c : Captured) (s : State) : (performOf i c s).turn = s.turn := by
  rw [performOf_control]
@[simp] theorem performOf_resp (i : Instr) (c : Captured) (s : State) : (performOf i c s).resp = s.resp := by
  rw [performOf_control]
@[simp] theorem performOf_schedule (i : Instr) (c : Captured) (s : State) : (performOf i c s).schedule = s.schedule := by
  rw [performOf_control]

/-- Everything the issue of a legal command can do, by what the block and its operands are (R110). -/
theorem issue_effects (i : Instr) (s : State) :
    (s.inflight ≠ none ∧ issue i (captureOf i) s = raiseErr .cmdWhileBusy s) ∨
      (s.inflight = none ∧ operandsAdmissible i s = false ∧ issue i (captureOf i) s = raiseErr .operandRange s) ∨
      (s.inflight = none ∧ operandsAdmissible i s = true ∧
        ∃ c, captureOf i s = .ok c ∧ InFlight.wellFormed ⟨i, c⟩ = true ∧ issue i (captureOf i) s = accept i c s) := by
  by_cases h : s.inflight = none
  · cases ha : operandsAdmissible i s with
    | false => exact .inr (.inl ⟨h, rfl, issue_error (by simp [State.busy, h]) (captureOf_inadmissible ha)⟩)
    | true =>
      obtain ⟨c, h1, h2⟩ := captureOf_admissible ha
      exact .inr (.inr ⟨h, rfl, c, h1, h2, issue_ok (by simp [State.busy, h]) h1⟩)
  · exact .inl ⟨h, issue_busy (by simp [State.busy, Option.isSome_iff_ne_none, h])⟩

/-- What a command may capture does not look at the answer of the bus. -/
theorem operandsAdmissible_answered (i : Instr) (s : State) (rest : List Event) (r : BusResp) :
    operandsAdmissible i (s.answered rest r) = operandsAdmissible i s := by
  cases i <;> rfl

theorem captureOf_answered (i : Instr) (s : State) (rest : List Event) (r : BusResp) :
    captureOf i (s.answered rest r) = captureOf i s := by
  cases i <;> rfl

theorem issueIllegal_eq (s : State) :
    issueIllegal s = raiseErr (if s.busy then .cmdWhileBusy else .illegalCmd) s := by
  unfold issueIllegal
  split <;> rfl

/-- Everything a change of the reset input can do (R240). -/
theorem resetInput_cases (level : Bool) (s : State) :
    (level = true ∧ resetInput level s = { s with rst := true, inflight := none }) ∨
      (level = false ∧ s.rst = false ∧ resetInput level s = s) ∨
      (level = false ∧ s.rst = true ∧ resetInput level s = { softReset s with rst := false }) := by
  unfold resetInput
  cases level <;> cases s.rst <;> simp

/-- Bit 0 of STATUS is BUSY (R40). -/
theorem statusWord_busy (s : State) : (statusWord s).getLsbD 0 = s.busy := by
  simp only [statusWord, BitVec.getLsbD_append]
  simp

/-- What a command writes depends on its operands, and on the registers and BYTES it leaves, alone. -/
theorem performOf_congr (i : Instr) (c : Captured) {s t : State} (hf : s.f = t.f) (hb : s.bytes = t.bytes) :
    (performOf i c s).f = (performOf i c t).f ∧ (performOf i c s).bytes = (performOf i c t).bytes := by
  by_cases hw : i.op = .wipe
  · unfold performOf
    simp only [hw]
    exact ⟨rfl, rfl⟩
  by_cases ht : i.op = .tobytes
  · rw [performOf_tobytes ht]
    simp only [performToBytes, setBytes_f, setBytes_bytes]
    exact ⟨hf, trivial⟩
  refine ⟨?_, by rw [performOf_bytes ht hw, performOf_bytes ht hw, hb]⟩
  unfold performOf
  cases h : i.op <;>
    simp only [performNop, performMul, performSqr, performMul121666, performInv, performFromBytes, setF_f, hf] <;>
    first | exact absurd h hw | exact absurd h ht

end Sys2Proof.Machine
end

