-- ==== Sys2Proof/Laws/Bus.lean ====
section
/-! SUPPORT. The register map read both ways (R71), and what an access to each location does. -/

namespace Sys2Proof.Machine

@[simp] theorem locate_id : locate 0x000#10 = .id := by decide
@[simp] theorem locate_ctrl : locate 0x004#10 = .ctrl := by decide
@[simp] theorem locate_status : locate 0x008#10 = .status := by decide
@[simp] theorem locate_cmd : locate 0x00C#10 = .cmd := by decide

@[simp] theorem locate_bwOffset (m : Fin 8) : locate (bwOffset m) = .bw m := by
  revert m; decide

@[simp] theorem locate_fwOffset (n : RegIdx) (k : Fin 10) : locate (fwOffset n k) = .fw n k := by
  revert n k; decide

theorem bwOffset_aligned (m : Fin 8) : (bwOffset m).toNat % 4 = 0 := by
  revert m; decide

theorem fwOffset_aligned (n : RegIdx) (k : Fin 10) : (fwOffset n k).toNat % 4 = 0 := by
  revert n k; decide

/-- Where a location stands; the reserved ones have no one offset (R71). -/
def Loc.offset? : Loc → Option Offset
  | .id => some 0x000#10
  | .ctrl => some 0x004#10
  | .status => some 0x008#10
  | .cmd => some 0x00C#10
  | .bw m => some (bwOffset m)
  | .fw n k => some (fwOffset n k)
  | .reserved => none

/-- An aligned offset is reserved or is the offset of what stands there (R71). -/
theorem offset_of_locate (off : Offset) (h : off.toNat % 4 = 0) :
    locate off = .reserved ∨ (locate off).offset? = some off := by
  revert off; decide +kernel

theorem eq_cmd_offset {off : Offset} (h : off.toNat % 4 = 0) (hc : locate off = .cmd) : off = 0x00C#10 := by
  have := offset_of_locate off h
  simp_all [Loc.offset?]

theorem eq_fwOffset {off : Offset} (h : off.toNat % 4 = 0) {n : RegIdx} {k : Fin 10} (hc : locate off = .fw n k) :
    off = fwOffset n k := by
  have := offset_of_locate off h
  simp_all [Loc.offset?]

theorem eq_bwOffset {off : Offset} (h : off.toNat % 4 = 0) {m : Fin 8} (hc : locate off = .bw m) :
    off = bwOffset m := by
  have := offset_of_locate off h
  simp_all [Loc.offset?]

/-! Reads by location (R85). -/

@[simp] theorem memRead_id (s : State) : memRead 0x000#10 s = 0x25510100#32 := rfl
@[simp] theorem memRead_ctrl (s : State) : memRead 0x004#10 s = ctrlWord s := rfl
@[simp] theorem memRead_status (s : State) : memRead 0x008#10 s = statusWord s := rfl
@[simp] theorem memRead_cmd (s : State) : memRead 0x00C#10 s = s.lastCmd := rfl

@[simp] theorem memRead_bwOffset (m : Fin 8) (s : State) : memRead (bwOffset m) s = bytesWord s.bytes m := by
  simp only [memRead, locate_bwOffset]

@[simp] theorem memRead_fwOffset (n : RegIdx) (k : Fin 10) (s : State) :
    memRead (fwOffset n k) s = (s.getF n)[k] := by
  simp only [memRead, locate_fwOffset]

/-- A read looks at the architectural state alone. -/
theorem memRead_answered (off : Offset) (s : State) (rest : List Event) (r : BusResp) :
    memRead off (s.answered rest r) = memRead off s := by
  unfold memRead; cases locate off <;> rfl

/-! Writes by location (R85). -/

@[simp] theorem memWrite_id (v : Word) (s : State) : memWrite .id v s = s := rfl
@[simp] theorem memWrite_ctrl (v : Word) (s : State) : memWrite .ctrl v s = writeCtrl v s := rfl
@[simp] theorem memWrite_status (v : Word) (s : State) : memWrite .status v s = writeStatus v s := rfl
@[simp] theorem memWrite_reserved (v : Word) (s : State) : memWrite .reserved v s = s := rfl
@[simp] theorem memWrite_cmd (v : Word) (s : State) : memWrite .cmd v s = s := rfl
@[simp] theorem memWrite_bw (m : Fin 8) (v : Word) (s : State) :
    memWrite (.bw m) v s = writeOperand (fun s => s.setBytes (setBytesWord s.bytes m v)) s := rfl
@[simp] theorem memWrite_fw (n : RegIdx) (k : Fin 10) (v : Word) (s : State) :
    memWrite (.fw n k) v s = writeOperand (fun s => s.setFWord n k v) s := rfl

/-- With no command in flight an operand write stores (R77). -/
theorem writeOperand_idle {store : State → State} {s : State} (h : s.inflight = none) :
    writeOperand store s = store s := by
  simp [writeOperand, State.busy, h]

/-- With a command in flight an operand write is dropped (R78). -/
theorem writeOperand_busy {store : State → State} {s : State} (h : s.inflight ≠ none) :
    writeOperand store s = raiseErr .writeWhileBusy s := by
  simp [writeOperand, State.busy, Option.isSome_iff_ne_none.2 h]

/-- A legal read answers with `memRead` and changes nothing (R77, R85). -/
theorem hostAccess_read {off : Offset} (h : off.toNat % 4 = 0) (s : State) :
    hostAccess (.read off .word) s = .go { s with resp := .data (memRead off s) } := by
  simp [hostAccess, Access.wellFormed, Access.wordWide, Access.aligned, Access.width, Access.off, h]

/-- A legal write at any location but CMD is taken by `memWrite` (R85). -/
theorem hostAccess_write {off : Offset} (h : off.toNat % 4 = 0) (hc : locate off ≠ .cmd) (v : Word) (s : State) :
    hostAccess (.write off .word v) s = .go (memWrite (locate off) v { s with resp := .ack }) := by
  simp only [hostAccess, Access.wellFormed, Access.wordWide, Access.aligned, Access.width, Access.off, h]
  cases hl : locate off <;> simp_all

/-- A legal CMD write (R41, R110). -/
theorem hostAccess_cmd (v : Word) (s : State) :
    hostAccess (.write 0x00C#10 .word v) s = writeCmd v { s with resp := .ack } := by
  simp [hostAccess, Access.wellFormed, Access.wordWide, Access.aligned, Access.width, Access.off]

/-- An access that is not 32 bits wide and aligned (R73). -/
theorem hostAccess_illegal {a : Access} (h : a.wellFormed = false) (s : State) :
    hostAccess a s = .fault (.busError 0#32) := by
  simp [hostAccess, h]

theorem eq_ctrl_offset {off : Offset} (h : off.toNat % 4 = 0) (hc : locate off = .ctrl) : off = 0x004#10 := by
  have := offset_of_locate off h
  simp_all [Loc.offset?]

theorem eq_status_offset {off : Offset} (h : off.toNat % 4 = 0) (hc : locate off = .status) : off = 0x008#10 := by
  have := offset_of_locate off h
  simp_all [Loc.offset?]

/-- Everything a write outside CMD can do (R39, R40, R72, R77, R78). -/
theorem memWrite_cases (loc : Loc) (v : Word) (s : State) :
    memWrite loc v s = s ∨
      (loc = .ctrl ∧ v.getLsbD 0 = true ∧ memWrite loc v s = softReset s) ∨
      (loc = .ctrl ∧ v.getLsbD 0 = false ∧ memWrite loc v s = { s with irqEn := v.getLsbD 1 }) ∨
      (loc = .status ∧ memWrite loc v s = writeStatus v s) ∨
      (s.inflight ≠ none ∧ memWrite loc v s = raiseErr .writeWhileBusy s) ∨
      (s.inflight = none ∧ ∃ m, loc = .bw m ∧ memWrite loc v s = s.setBytes (setBytesWord s.bytes m v)) ∨
      (s.inflight = none ∧ ∃ n k, loc = .fw n k ∧ memWrite loc v s = s.setFWord n k v) := by
  cases loc with
  | id | reserved | cmd => exact .inl rfl
  | ctrl =>
    cases h : v.getLsbD 0
    · exact .inr (.inr (.inl ⟨rfl, rfl, by rw [memWrite_ctrl, writeCtrl, h]; rfl⟩))
    · exact .inr (.inl ⟨rfl, rfl, by rw [memWrite_ctrl, writeCtrl, h]; rfl⟩)
  | status => exact .inr (.inr (.inr (.inl ⟨rfl, memWrite_status v s⟩)))
  | bw m =>
    by_cases h : s.inflight = none
    · exact .inr (.inr (.inr (.inr (.inr (.inl ⟨h, m, rfl, by rw [memWrite_bw, writeOperand_idle h]⟩)))))
    · exact .inr (.inr (.inr (.inr (.inl ⟨h, by rw [memWrite_bw, writeOperand_busy h]⟩))))
  | fw n k =>
    by_cases h : s.inflight = none
    · exact .inr (.inr (.inr (.inr (.inr (.inr ⟨h, n, k, rfl, by rw [memWrite_fw, writeOperand_idle h]⟩)))))
    · exact .inr (.inr (.inr (.inr (.inl ⟨h, by rw [memWrite_fw, writeOperand_busy h]⟩))))

end Sys2Proof.Machine
end

