-- ==== Sys2Proof/Laws/Decode.lean ====
section
/-! SUPPORT. The fields of an encoded command, the word its fields make, and what a decoded word says about its
fields. -/

namespace Sys2Proof

theorem word_eq_fields (c : Word) :
    c = rsv3Field c ++ rs2Field c ++ rsv2Field c ++ rs1Field c ++ rsv1Field c ++ rdField c ++ rsv0Field c ++
      pField c ++ opcField c := by
  apply BitVec.eq_of_getLsbD_eq
  intro i hi
  simp only [BitVec.getLsbD_append, rsv3Field, rs2Field, rsv2Field, rs1Field, rsv1Field, rdField, rsv0Field, pField,
    opcField, BitVec.getLsbD_extractLsb']
  interval_cases i <;> simp

theorem fields_of_append (r3 : BitVec 13) (b : BitVec 3) (r2 : BitVec 1) (a : BitVec 3) (r1 : BitVec 1) (d : BitVec 3)
    (r0 : BitVec 3) (p : BitVec 1) (o : BitVec 4) (c : Word)
    (h : c = r3 ++ b ++ r2 ++ a ++ r1 ++ d ++ r0 ++ p ++ o) :
    rsv3Field c = r3 ∧ rs2Field c = b ∧ rsv2Field c = r2 ∧ rs1Field c = a ∧ rsv1Field c = r1 ∧ rdField c = d ∧
      rsv0Field c = r0 ∧ pField c = p ∧ opcField c = o := by
  subst h
  refine ⟨?_, ?_, ?_, ?_, ?_, ?_, ?_, ?_, ?_⟩ <;> (apply BitVec.eq_of_getLsbD_eq; intro i hi) <;>
    simp only [BitVec.getLsbD_append, rsv3Field, rs2Field, rsv2Field, rs1Field, rsv1Field, rdField, rsv0Field, pField,
      opcField, BitVec.getLsbD_extractLsb'] <;> interval_cases i <;> simp

/-- The fields of an encoded command (R101, R106). -/
theorem encode_fields (i : Instr) :
    rsv3Field (encode i) = 0#13 ∧ rs2Field (encode i) = fieldOfReg i.rs2 ∧ rsv2Field (encode i) = 0#1 ∧
      rs1Field (encode i) = fieldOfReg i.rs1 ∧ rsv1Field (encode i) = 0#1 ∧ rdField (encode i) = fieldOfReg i.rd ∧
      rsv0Field (encode i) = 0#3 ∧ pField (encode i) = i.path.bit ∧ opcField (encode i) = i.op.code :=
  fields_of_append _ _ _ _ _ _ _ _ _ _ rfl

@[simp] theorem regOfField_fieldOfReg (r : RegIdx) : regOfField (fieldOfReg r) = r := rfl

@[simp] theorem fieldOfReg_regOfField (b : BitVec 3) : fieldOfReg (regOfField b) = b := rfl

theorem op_eq_wipe {i : Instr} (h : i.op = .wipe) : i = .wipe := by
  cases i <;> simp [Instr.op] at h ⊢

end Sys2Proof
end

