-- ==== Sys2Proof/Laws/Operands.lean ====
section
/-! SUPPORT. What the operand forms say: a limb form has the value it was made of, and is admissible; residues; the
power; byte strings. Later proofs cite these and do not unfold the forms. -/

namespace Sys2Proof.Machine

theorem slice_lt (v lo n : Nat) : slice v lo n < 2 ^ n := Nat.mod_lt _ (by positivity)

theorem width32_le (i : Nat) : width32 i ≤ 26 := by unfold width32; split <;> omega

theorem slice_width32_lt (v i : Nat) : slice v (pos32 i) (width32 i) < 2 ^ 26 :=
  lt_of_lt_of_le (slice_lt ..) (Nat.pow_le_pow_right (by norm_num) (width32_le i))

/-! ### LIMB32 -/

theorem limb32_radix32 (v : Nat) (i : Fin 10) :
    limb32 (radix32 v) i = (slice v (pos32 i.val) (width32 i.val) : Nat) := by
  have h := slice_width32_lt v i.val
  simp only [limb32, radix32, Fin.getElem_fin, Vector.getElem_ofFn]
  rw [BitVec.toInt_eq_toNat_of_lt] <;> simp only [BitVec.toNat_ofNat] <;> omega

/-- A value below 2^255 is what its ten slices add up to (R34). -/
theorem sum_slice32 (v : Nat) (h : v < 2 ^ 255) :
    (∑ i : Fin 10, slice v (pos32 i.val) (width32 i.val) * 2 ^ pos32 i.val) = v := by
  simp only [Fin.sum_univ_succ, Fin.sum_univ_zero, slice, pos32, width32, Fin.val_succ, Fin.val_zero]
  norm_num
  norm_num at h
  omega

theorem val32_radix32 (v : Nat) (h : v < 2 ^ 255) : val32 (radix32 v) = v := by
  simp only [val32, limb32_radix32]
  exact_mod_cast sum_slice32 v h

theorem adm32_iff (w : FReg) :
    adm32 w = true ↔ ∀ i : Fin 10, -(2 ^ 27 : Int) < limb32 w i ∧ limb32 w i < 2 ^ 27 := by
  rw [adm32, decide_eq_true_iff]
  norm_num [Config.adm32]

theorem adm32_radix32 (v : Nat) : adm32 (radix32 v) = true := by
  rw [adm32_iff]
  intro i
  have := slice_width32_lt v i.val
  rw [limb32_radix32]
  constructor <;> omega

/-! ### LIMB64 -/

theorem limb64_radix64 (v : Nat) (i : Fin 5) : limb64 (radix64 v) i = slice v (51 * i.val) 51 := by
  have h := slice_lt v (51 * i.val) 51
  have e1 : (2 * i.val + 1) / 2 = i.val := by omega
  have e2 : (2 * i.val) / 2 = i.val := by omega
  have e3 : (2 * i.val + 1) % 2 = 1 := by omega
  have e4 : (2 * i.val) % 2 = 0 := by omega
  simp only [limb64, radix64, Vector.getElem_ofFn, e1, e2, e3, e4]
  generalize slice v (51 * i.val) 51 = l at h
  simp only [slice, BitVec.toNat_append, BitVec.toNat_ofNat]
  rw [Nat.shiftLeft_eq, Nat.mul_comm, ← Nat.two_pow_add_eq_or_of_lt (Nat.mod_lt _ (by norm_num))]
  omega

/-- A value below 2^255 is what its five slices add up to (R34). -/
theorem sum_slice64 (v : Nat) (h : v < 2 ^ 255) : (∑ i : Fin 5, slice v (51 * i.val) 51 * 2 ^ (51 * i.val)) = v := by
  simp only [Fin.sum_univ_succ, Fin.sum_univ_zero, slice, Fin.val_succ, Fin.val_zero]
  norm_num
  norm_num at h
  omega

theorem val64_radix64 (v : Nat) (h : v < 2 ^ 255) : val64 (radix64 v) = v := by
  simp only [val64, limb64_radix64]
  exact sum_slice64 v h

theorem adm64_iff (w : FReg) : adm64 w = true ↔ ∀ i : Fin 5, limb64 w i < 2 ^ 54 := by
  rw [adm64, decide_eq_true_iff]
  norm_num [Config.adm64]

theorem adm64_radix64 (v : Nat) : adm64 (radix64 v) = true := by
  rw [adm64_iff]
  intro i
  rw [limb64_radix64]
  exact lt_of_lt_of_le (slice_lt ..) (by norm_num)

/-! ### Both paths -/

/-- valP(radixP(v)) = v (R34). -/
theorem val_radix (path : Path) (v : Nat) (h : v < 2 ^ 255) : val path (radix path v) = v := by
  cases path
  · exact val32_radix32 v h
  · exact congrArg Nat.cast (val64_radix64 v h)

/-- Every radix form is admissible under its own path (R35). -/
theorem adm_radix (path : Path) (v : Nat) : adm path (radix path v) = true := by
  cases path
  · exact adm32_radix32 v
  · exact adm64_radix64 v

theorem p_pos : 0 < Config.p := by norm_num [Config.p]

theorem p_lt : Config.p < 2 ^ 255 := by norm_num [Config.p]

theorem residue_lt (x : Int) : residue x < Config.p := by
  have h0 : 0 < (Config.p : Int) := by exact_mod_cast p_pos
  have := Int.emod_nonneg x h0.ne'
  have := Int.emod_lt_of_pos x h0
  unfold residue
  omega

theorem residue_lt_two_pow (x : Int) : residue x < 2 ^ 255 := lt_trans (residue_lt x) p_lt

theorem residue_cast (x : Int) : (residue x : Int) = x % (Config.p : Int) :=
  Int.toNat_of_nonneg (Int.emod_nonneg x (by exact_mod_cast p_pos.ne'))

theorem residue_congr {x y : Int} (h : x ≡ y [ZMOD (Config.p : Int)]) : residue x = residue y :=
  congrArg Int.toNat h

theorem residue_modEq (x : Int) : (residue x : Int) ≡ x [ZMOD (Config.p : Int)] := by
  rw [residue_cast]
  exact Int.mod_modEq x _

theorem residue_of_lt {v : Nat} (h : v < Config.p) : residue (v : Int) = v := by
  simp only [residue]
  rw [Int.emod_eq_of_lt (by omega) (by exact_mod_cast h), Int.toNat_natCast]

theorem residue_nat (v : Nat) : residue (v : Int) = v % Config.p := by
  simp only [residue]
  exact_mod_cast Int.toNat_natCast _

theorem residue_residue (x : Int) : residue (residue x : Int) = residue x := residue_of_lt (residue_lt x)

/-- The value of a canonical form is the residue (R34). -/
theorem val_canon (path : Path) (x : Int) : val path (canon path x) = residue x :=
  val_radix path _ (residue_lt_two_pow x)

theorem adm_canon (path : Path) (x : Int) : adm path (canon path x) = true := adm_radix path _

theorem canon_congr (path : Path) {x y : Int} (h : x ≡ y [ZMOD (Config.p : Int)]) : canon path x = canon path y :=
  congrArg (radix path) (residue_congr h)

/-! ### The power of INV -/

/-- Squaring and multiplying gives the residue of the power (R182). -/
theorem powMod_modEq (b n e : Nat) (h : e < 2 ^ n) : powMod b n e ≡ b ^ e [MOD Config.p] := by
  induction n generalizing e with
  | zero => obtain rfl : e = 0 := by omega
            rfl
  | succ n ih =>
    have ih := ih (e / 2) (by omega)
    calc powMod b (n + 1) e ≡ powMod b n (e / 2) ^ 2 * b ^ (e % 2) [MOD Config.p] := Nat.mod_modEq _ _
      _ ≡ (b ^ (e / 2)) ^ 2 * b ^ (e % 2) [MOD Config.p] := (ih.pow 2).mul_right _
      _ = b ^ e := by rw [← pow_mul, ← pow_add]; congr 1; omega

theorem powMod_inv_modEq (b : Nat) : powMod b 255 Config.invExponent ≡ b ^ Config.invExponent [MOD Config.p] :=
  powMod_modEq b 255 _ (by norm_num [Config.invExponent])

/-! ### Byte strings -/

theorem intOfBytes_bytesOfInt (r : Nat) (h : r < 2 ^ 256) : intOfBytes (bytesOfInt r) = r := by
  simp only [intOfBytes, bytesOfInt, Fin.getElem_fin, Vector.getElem_ofFn, BitVec.toNat_ofNat, slice,
    Nat.mod_mod]
  simp only [Fin.sum_univ_succ, Fin.sum_univ_zero, Fin.val_succ, Fin.val_zero]
  norm_num
  norm_num at h
  omega

theorem intOfBytes_lt (b : ByteString) : intOfBytes b < 2 ^ 256 := by
  have h (k : Fin 32) : b[k].toNat < 256 := b[k].isLt
  have h' : intOfBytes b ≤ ∑ k : Fin 32, 255 * 2 ^ (8 * k.val) :=
    Finset.sum_le_sum fun k _ => Nat.mul_le_mul_right _ (by have := h k; omega)
  exact lt_of_le_of_lt h' (by decide)

/-- Digit `j` in base 256 of a sum of digits. -/
theorem digit_of_sum (g : Nat → Nat) (hg : ∀ k, g k < 256) (n j : Nat) (hj : j < n) :
    (∑ k ∈ Finset.range n, g k * 256 ^ k) / 256 ^ j % 256 = g j := by
  induction j generalizing g n with
  | zero =>
    obtain ⟨n, rfl⟩ : ∃ m, n = m + 1 := ⟨n - 1, by omega⟩
    rw [Finset.sum_range_succ', pow_zero, Nat.div_one, mul_one]
    simp only [pow_succ, ← mul_assoc, ← Finset.sum_mul]
    have := hg 0
    omega
  | succ j ih =>
    obtain ⟨n, rfl⟩ : ∃ m, n = m + 1 := ⟨n - 1, by omega⟩
    rw [Finset.sum_range_succ', pow_zero, mul_one, pow_succ', ← Nat.div_div_eq_div_mul]
    simp only [pow_succ, ← mul_assoc, ← Finset.sum_mul]
    have h0 := hg 0
    rw [show ∀ x, (x * 256 + g 0) / 256 = x by omega]
    exact ih (fun k => g (k + 1)) (fun k => hg _) n (by omega)

/-- Byte `k` of a string is the slice of its integer (R37). -/
theorem slice_intOfBytes (b : ByteString) (k : Fin 32) : slice (intOfBytes b) (8 * k.val) 8 = b[k].toNat := by
  have h : intOfBytes b = ∑ k ∈ Finset.range 32, (if h : k < 32 then b[k].toNat else 0) * 256 ^ k := by
    simp [intOfBytes, Finset.sum_range, pow_mul]
  rw [slice, h, pow_mul]
  refine (digit_of_sum (fun k => if h : k < 32 then b[k].toNat else 0) (fun k => ?_) 32 k.val k.isLt).trans ?_
  · split
    · exact BitVec.isLt _
    · norm_num
  · simp

/-- A byte string is the bytes of its integer. -/
theorem bytesOfInt_intOfBytes (b : ByteString) : bytesOfInt (intOfBytes b) = b := by
  ext k hk
  simp only [bytesOfInt, Vector.getElem_ofFn, slice_intOfBytes b ⟨k, hk⟩]
  simp

theorem intOfBytes_injective : Function.Injective intOfBytes := fun a b h => by
  rw [← bytesOfInt_intOfBytes a, h, bytesOfInt_intOfBytes]

/-- The four lanes of a word make the word (R74). -/
theorem wordOfLanes_laneOf (v : Word) : wordOfLanes (laneOf v 0) (laneOf v 1) (laneOf v 2) (laneOf v 3) = v := by
  apply BitVec.eq_of_getLsbD_eq
  intro i hi
  simp only [wordOfLanes, laneOf, BitVec.getLsbD_append, BitVec.getLsbD_extractLsb']
  interval_cases i <;> simp

/-- Reading a word of BYTES after writing one (R77). -/
theorem bytesWord_setBytesWord (b : ByteString) (m m' : Fin 8) (v : Word) :
    bytesWord (setBytesWord b m v) m' = if m' = m then v else bytesWord b m' := by
  have h (k : Fin 32) : (setBytesWord b m v)[k] =
      if k.val / 4 = m.val then laneOf v ⟨k.val % 4, by omega⟩ else b[k] := by
    simp [setBytesWord]
  have e0 := h ⟨4 * m'.val, by omega⟩
  have e1 := h ⟨4 * m'.val + 1, by omega⟩
  have e2 := h ⟨4 * m'.val + 2, by omega⟩
  have e3 := h ⟨4 * m'.val + 3, by omega⟩
  simp only [Fin.getElem_fin, show (4 * m'.val) / 4 = m'.val by omega,
    show (4 * m'.val + 1) / 4 = m'.val by omega, show (4 * m'.val + 2) / 4 = m'.val by omega,
    show (4 * m'.val + 3) / 4 = m'.val by omega, show (4 * m'.val) % 4 = 0 by omega,
    show (4 * m'.val + 1) % 4 = 1 by omega, show (4 * m'.val + 2) % 4 = 2 by omega,
    show (4 * m'.val + 3) % 4 = 3 by omega] at e0 e1 e2 e3
  simp only [bytesWord, e0, e1, e2, e3, Fin.ext_iff]
  split
  · exact wordOfLanes_laneOf v
  · rfl

/-- Two residues are one exactly when the integers are congruent (R11). -/
theorem residue_eq_iff (x y : Int) : residue x = residue y ↔ x ≡ y [ZMOD (Config.p : Int)] := by
  refine ⟨fun h => ?_, residue_congr⟩
  have := residue_modEq x
  rw [h] at this
  exact this.symm.trans (residue_modEq y)

theorem residue_lt_two_pow_256 (x : Int) : residue x < 2 ^ 256 := lt_trans (residue_lt_two_pow x) (by norm_num)

theorem bytesOfInt_inj {a b : Nat} (ha : a < 2 ^ 256) (hb : b < 2 ^ 256) : bytesOfInt a = bytesOfInt b ↔ a = b :=
  ⟨fun h => by rw [← intOfBytes_bytesOfInt a ha, h, intOfBytes_bytesOfInt b hb], fun h => by rw [h]⟩

theorem byte_top (x : Byte) : x.getLsbD 7 = decide (128 ≤ x.toNat) := by
  revert x; decide +kernel

theorem topBit_iff (n x : Nat) (h1 : n < 2 ^ 256) (h2 : n / 2 ^ 248 % 256 = x) : 128 ≤ x ↔ 2 ^ 255 ≤ n := by
  norm_num at h1 h2 ⊢
  omega

/-- Bit 255 of a string is bit 7 of its last byte (R37, R130). -/
theorem topBit_eq (b : ByteString) : (b[31]).getLsbD 7 = decide (2 ^ 255 ≤ intOfBytes b) := by
  rw [byte_top, decide_eq_decide]
  exact topBit_iff _ _ (intOfBytes_lt b) (slice_intOfBytes b 31)

end Sys2Proof.Machine
end

