-- ==== Sys2Proof/Laws/PerInstr.lean ====
section
/-! SUPPORT. Per command: its word matches the row of its mnemonic in the match and mask table (R103). -/

namespace Sys2Proof.Laws.EncodesAsItsRow

/-- The command's word encodes the form of its own mnemonic, and no other form of the table. -/
def Statement (i : Instr) : Prop :=
  (forms.filter fun f => f.encodes (encode i)).map Form.mnemonic = [i.mnemonic]

theorem nop : Statement .nop := by
  unfold Statement; decide
theorem mul32 (rd rs1 rs2 : RegIdx) : Statement (.mul32 rd rs1 rs2) := by
  unfold Statement; revert rd rs1 rs2; decide +kernel
theorem mul64 (rd rs1 rs2 : RegIdx) : Statement (.mul64 rd rs1 rs2) := by
  unfold Statement; revert rd rs1 rs2; decide +kernel
theorem sqr32 (rd rs1 : RegIdx) : Statement (.sqr32 rd rs1) := by
  unfold Statement; revert rd rs1; decide +kernel
theorem sqr64 (rd rs1 : RegIdx) : Statement (.sqr64 rd rs1) := by
  unfold Statement; revert rd rs1; decide +kernel
theorem mul121666x32 (rd rs1 : RegIdx) : Statement (.mul121666x32 rd rs1) := by
  unfold Statement; revert rd rs1; decide +kernel
theorem mul121666x64 (rd rs1 : RegIdx) : Statement (.mul121666x64 rd rs1) := by
  unfold Statement; revert rd rs1; decide +kernel
theorem inv32 (rd rs1 : RegIdx) : Statement (.inv32 rd rs1) := by
  unfold Statement; revert rd rs1; decide +kernel
theorem inv64 (rd rs1 : RegIdx) : Statement (.inv64 rd rs1) := by
  unfold Statement; revert rd rs1; decide +kernel
theorem frombytes32 (rd : RegIdx) : Statement (.frombytes32 rd) := by
  unfold Statement; revert rd; decide +kernel
theorem frombytes64 (rd : RegIdx) : Statement (.frombytes64 rd) := by
  unfold Statement; revert rd; decide +kernel
theorem tobytes32 (rs1 : RegIdx) : Statement (.tobytes32 rs1) := by
  unfold Statement; revert rs1; decide +kernel
theorem tobytes64 (rs1 : RegIdx) : Statement (.tobytes64 rs1) := by
  unfold Statement; revert rs1; decide +kernel
theorem wipe : Statement .wipe := by
  unfold Statement; decide

end Sys2Proof.Laws.EncodesAsItsRow

namespace Sys2Proof

/-- The word of a command is legal (R104). -/
theorem legalWord_encode (i : Instr) : legalWord (encode i) = true := by
  have h : Laws.EncodesAsItsRow.Statement i := by
    cases i with
    | nop => exact Laws.EncodesAsItsRow.nop
    | mul32 a b c => exact Laws.EncodesAsItsRow.mul32 a b c
    | mul64 a b c => exact Laws.EncodesAsItsRow.mul64 a b c
    | sqr32 a b => exact Laws.EncodesAsItsRow.sqr32 a b
    | sqr64 a b => exact Laws.EncodesAsItsRow.sqr64 a b
    | mul121666x32 a b => exact Laws.EncodesAsItsRow.mul121666x32 a b
    | mul121666x64 a b => exact Laws.EncodesAsItsRow.mul121666x64 a b
    | inv32 a b => exact Laws.EncodesAsItsRow.inv32 a b
    | inv64 a b => exact Laws.EncodesAsItsRow.inv64 a b
    | frombytes32 a => exact Laws.EncodesAsItsRow.frombytes32 a
    | frombytes64 a => exact Laws.EncodesAsItsRow.frombytes64 a
    | tobytes32 a => exact Laws.EncodesAsItsRow.tobytes32 a
    | tobytes64 a => exact Laws.EncodesAsItsRow.tobytes64 a
    | wipe => exact Laws.EncodesAsItsRow.wipe
  rw [legalWord, List.any_eq_true]
  by_contra hc
  push Not at hc
  rw [Laws.EncodesAsItsRow.Statement, List.filter_eq_nil_iff.2 fun f hf => by simpa using hc f hf] at h
  cases h

end Sys2Proof
end

