-- ==== Sys2Proof/Laws/Prime.lean ====
section
/-! SUPPORT. 2^255 - 19 is a prime (R15's "the prime 2^255−19"), by a certificate: a chain of primes, each with a
generator whose order is checked by evaluating powers. -/

namespace Sys2Proof.Machine

/-- `b ^ e` modulo `m` for an exponent of `n` bits, in a form the kernel evaluates. -/
def powModulo (m b : Nat) : (n : Nat) → (e : Nat) → Nat
  | 0, _ => 1
  | n + 1, e => powModulo m b n (e / 2) ^ 2 * b ^ (e % 2) % m

theorem powModulo_modEq (m b n e : Nat) (h : e < 2 ^ n) : powModulo m b n e ≡ b ^ e [MOD m] := by
  induction n generalizing e with
  | zero => obtain rfl : e = 0 := by omega
            rfl
  | succ n ih =>
    calc powModulo m b (n + 1) e ≡ powModulo m b n (e / 2) ^ 2 * b ^ (e % 2) [MOD m] := Nat.mod_modEq _ _
      _ ≡ (b ^ (e / 2)) ^ 2 * b ^ (e % 2) [MOD m] := ((ih (e / 2) (by omega)).pow 2).mul_right _
      _ = b ^ e := by rw [← pow_mul, ← pow_add]; congr 1; omega

/-- The checks of one link of the chain: the factors multiply to `m - 1`, and `b` has order `m - 1`. -/
def primeCheck (m b : Nat) (factors : List Nat) : Bool :=
  decide (1 < m) && decide (m < 2 ^ 255) && decide (factors.prod = m - 1) &&
    powModulo m b 255 (m - 1) == 1 % m && factors.all fun q => powModulo m b 255 ((m - 1) / q) != 1 % m

theorem prime_of_check {m b : Nat} {factors : List Nat} (hc : primeCheck m b factors = true)
    (hp : factors.Forall Nat.Prime) : m.Prime := by
  simp only [primeCheck, Bool.and_eq_true, decide_eq_true_eq, beq_iff_eq, List.all_eq_true, bne_iff_ne] at hc
  obtain ⟨⟨⟨⟨h1, h2⟩, hprod⟩, hone⟩, hne⟩ := hc
  have cast (e : Nat) (he : e < 2 ^ 255) : ((b : ZMod m) ^ e = 1) ↔ powModulo m b 255 e % m = 1 % m := by
    rw [← Nat.cast_pow, ← Nat.cast_one, ZMod.natCast_eq_natCast_iff]
    exact ⟨fun h => (powModulo_modEq m b 255 e he).trans h, fun h => (powModulo_modEq m b 255 e he).symm.trans h⟩
  have red (e : Nat) (he : e < 2 ^ 255) : powModulo m b 255 e % m = powModulo m b 255 e := by
    rw [show (255 : Nat) = 254 + 1 from rfl, powModulo, Nat.mod_mod]
  refine lucas_primality m (b : ZMod m) ((cast _ (by omega)).2 ?_) fun q hq hdvd h => ?_
  · rw [red _ (by omega), hone]
  · rw [← hprod] at hdvd
    obtain ⟨r, hr, hqr⟩ := (Nat.Prime.prime hq).dvd_prod_iff.1 hdvd
    obtain rfl : q = r := (Nat.prime_dvd_prime_iff_eq hq (List.forall_iff_forall_mem.1 hp r hr)).1 hqr
    have hlt : (m - 1) / q < 2 ^ 255 := lt_of_le_of_lt (Nat.div_le_self _ _) (by omega)
    exact hne q hr ((red _ hlt).symm.trans ((cast _ hlt).1 h))

theorem prime_2773320623 : Nat.Prime 2773320623 :=
  prime_of_check (b := 5) (factors := [2, 2437, 569003]) (by decide +kernel) (by norm_num [List.Forall])

theorem prime_72106336199 : Nat.Prime 72106336199 :=
  prime_of_check (b := 7) (factors := [2, 13, 2773320623]) (by decide +kernel) ⟨by norm_num, by norm_num, prime_2773320623⟩

theorem prime_1919519569386763 : Nat.Prime 1919519569386763 :=
  prime_of_check (b := 2) (factors := [2, 3, 7, 19, 47, 47, 127, 8574133]) (by decide +kernel) (by norm_num [List.Forall])

theorem prime_31757755568855353 : Nat.Prime 31757755568855353 :=
  prime_of_check (b := 10) (factors := [2, 2, 2, 3, 31, 107, 223, 4153, 430751]) (by decide +kernel) (by norm_num [List.Forall])

theorem prime_754457 : Nat.Prime 75445702479781427272750846543864801 :=
  prime_of_check (b := 7) (factors := [2, 2, 2, 2, 2, 3, 3, 5, 5, 75707, 72106336199, 1919519569386763])
    (by decide +kernel) (by
    refine ⟨?_, ?_, ?_, ?_, ?_, ?_, ?_, ?_, ?_, ?_, prime_72106336199, prime_1919519569386763⟩ <;> norm_num)

theorem prime_740582 :
    Nat.Prime 74058212732561358302231226437062788676166966415465897661863160754340907 :=
  prime_of_check (b := 2)
    (factors := [2, 3, 353, 57467, 132049, 1923133, 31757755568855353, 75445702479781427272750846543864801])
    (by decide +kernel) (by
    refine ⟨?_, ?_, ?_, ?_, ?_, ?_, prime_31757755568855353, prime_754457⟩ <;> norm_num)

/-- p = 2^255 - 19 is prime (R1, R15). -/
theorem p_prime : Nat.Prime Config.p :=
  prime_of_check (b := 2)
    (factors := [2, 2, 3, 65147, 74058212732561358302231226437062788676166966415465897661863160754340907])
    (by decide +kernel) (by
    refine ⟨?_, ?_, ?_, ?_, prime_740582⟩ <;> norm_num)

end Sys2Proof.Machine
end

