-- ==== Sys2Proof/Laws/Step.lean ====
section
/-! SUPPORT. The step on each kind of event, and everything a step that answers a next state can have done. -/

namespace Sys2Proof.Machine

theorem nextAction_access {s : State} {a : Access} {rest : List Event} (hr : s.rst = false)
    (hs : s.schedule = .access a :: rest) :
    nextAction s = hostAccess a { s with schedule := rest, turn := .host } := by
  unfold nextAction
  rw [hs]
  exact if_neg (by simp [hr])

theorem engineTurn_inflight {s : State} {r : InFlight} (hr : s.rst = false) (hi : s.inflight = some r) :
    engineTurn s = .run r.cmd { s with turn := .engine } := by
  unfold engineTurn
  rw [hi]
  exact if_neg (by simp [hr])

theorem step_read {s : State} {off : Offset} {rest : List Event} (hr : s.rst = false)
    (hs : s.schedule = .access (.read off .word) :: rest) (h : off.toNat % 4 = 0) :
    step s = .next (s.answered rest (.data (memRead off s))) := by
  rw [step, nextAction_access hr hs, hostAccess_read h]
  rfl

theorem step_write {s : State} {off : Offset} {v : Word} {rest : List Event} (hr : s.rst = false)
    (hs : s.schedule = .access (.write off .word v) :: rest) (h : off.toNat % 4 = 0) (hc : locate off ≠ .cmd) :
    step s = .next (memWrite (locate off) v (s.answered rest .ack)) := by
  rw [step, nextAction_access hr hs, hostAccess_write h hc]
  rfl

theorem step_cmd_legal {s : State} {c : Word} {i : Instr} {rest : List Event} (hr : s.rst = false)
    (hs : s.schedule = cmdWriteEvent c :: rest) (hd : decode c = .ok i) :
    step s = exec i (s.answered rest .ack) := by
  rw [step, nextAction_access hr hs, hostAccess_cmd, writeCmd, hd]
  rfl

theorem step_cmd_illegal {s : State} {c : Word} {e : Illegal} {rest : List Event} (hr : s.rst = false)
    (hs : s.schedule = cmdWriteEvent c :: rest) (hd : decode c = .error e) :
    step s = .next (issueIllegal (s.answered rest .ack)) := by
  rw [step, nextAction_access hr hs, hostAccess_cmd, writeCmd, hd]
  rfl

/-- The engine's turn with a command in flight is that command's `exec` (R111). -/
theorem step_complete {s : State} {r : InFlight} {rest : List Event} (hr : s.rst = false)
    (hs : s.schedule = .complete :: rest) (hi : s.inflight = some r) :
    step s = exec r.cmd { s with schedule := rest, turn := .engine } := by
  have h : nextAction s = engineTurn { s with schedule := rest } := by rw [nextAction, hs]
  rw [step, h, engineTurn_inflight (s := { s with schedule := rest }) hr hi]

/-- With no event left the engine takes its turn (R112). -/
theorem step_drain {s : State} {r : InFlight} (hr : s.rst = false) (hs : s.schedule = [])
    (hi : s.inflight = some r) : step s = exec r.cmd { s with turn := .engine } := by
  have h : nextAction s = engineTurn s := by rw [nextAction, hs]
  rw [step, h, engineTurn_inflight hr hi]

/-- One step of a run of any machine. -/
theorem run_succ (M : Host.Core) {s t : M.State} (h : M.step s = .next t) (k : Nat) : M.run (k + 1) s = M.run k t := by
  simp only [Host.Core.run, h]

/-- One step of a run of the block. -/
theorem run_step {s t : State} (h : step s = .next t) (k : Nat) : Sys2Proof.core.run (k + 1) s = Sys2Proof.core.run k t :=
  run_succ Sys2Proof.core h k

@[simp] theorem run_zero (s : State) : Sys2Proof.core.run 0 s = .next s := rfl

theorem runsTo_step {s t : State} (h : step s = .next t) {k : Nat} {good : State → Prop} (ht : runsTo k t good) :
    runsTo (k + 1) s good := by
  obtain ⟨u, hu, hg⟩ := ht
  exact ⟨u, (run_step h k).trans hu, hg⟩

theorem runsTo_zero {s : State} {good : State → Prop} (h : good s) : runsTo 0 s good := ⟨s, rfl, h⟩

/-- The state a command leaves that is issued and then completes (R110, R111). -/
def commandDone (i : Instr) (c : Captured) (q : List Event) (s : State) : State :=
  retire (performOf i c (completing i c { s.answered q .ack with lastCmd := encode i }))

/-- All that a command leaves alone between its issue and its completion. -/
theorem commandDone_eq (i : Instr) (c : Captured) (q : List Event) (s : State) :
    commandDone i c q s =
      { s.answered q .ack with
        turn := .engine, done := true, inflight := none, lastCmd := encode i
        f := (commandDone i c q s).f, bytes := (commandDone i c q s).bytes } := by
  unfold commandDone
  rw [performOf_control]
  rfl

@[simp] theorem commandDone_rst (i : Instr) (c : Captured) (q : List Event) (s : State) :
    (commandDone i c q s).rst = s.rst := by rw [commandDone_eq]; rfl

@[simp] theorem commandDone_inflight (i : Instr) (c : Captured) (q : List Event) (s : State) :
    (commandDone i c q s).inflight = none := by rw [commandDone_eq]

@[simp] theorem commandDone_schedule (i : Instr) (c : Captured) (q : List Event) (s : State) :
    (commandDone i c q s).schedule = q := by rw [commandDone_eq]; rfl

@[simp] theorem commandDone_err (i : Instr) (c : Captured) (q : List Event) (s : State) :
    (commandDone i c q s).err = s.err := by rw [commandDone_eq]; rfl

/-- What FROMBYTES leaves in its register, issued and completed (R130). -/
theorem commandDone_frombytes {i : Instr} (h : i.op = .frombytes) (c : Captured) (q : List Event) (s : State) :
    (commandDone i c q s).getF i.rd = radix i.path (intOfBytes c.x % 2 ^ 255) := by
  rw [commandDone, performOf_frombytes h]
  exact getF_setF_same _ _ _

/-- What TOBYTES leaves in BYTES, issued and completed (R131). -/
theorem commandDone_tobytes {i : Instr} (h : i.op = .tobytes) (c : Captured) (q : List Event) (s : State) :
    (commandDone i c q s).bytes = bytesOfInt (residue (val i.path c.a)) := by
  rw [commandDone, performOf_tobytes h]
  rfl

/-- A command issued on an idle block and completed at the next event, once its word decodes to it. -/
theorem runsTo_command {s : State} {i : Instr} {c : Captured} {q : List Event} {k : Nat} {good : State → Prop}
    (hr : s.rst = false) (hi : s.inflight = none) (hd : decode (encode i) = .ok i)
    (hs : s.schedule = cmdWriteEvent (encode i) :: .complete :: q) (hc : captureOf i s = .ok c)
    (ht : runsTo k (commandDone i c q s) good) : runsTo (k + 2) s good := by
  have hc' : captureOf i (s.answered (.complete :: q) .ack) = .ok c := by rw [← hc]; cases i <;> rfl
  have h1 : step s = .next (accept i c (s.answered (.complete :: q) .ack)) := by
    rw [step_cmd_legal hr hs hd, exec_host rfl, issue_ok (by simp [State.busy, hi]) hc']
  have h2 : step (accept i c (s.answered (.complete :: q) .ack)) = .next (commandDone i c q s) := by
    have hq : (accept i c (s.answered (.complete :: q) .ack)).rst = false := hr
    rw [step_complete (r := ⟨i, c⟩) (rest := q) hq rfl rfl, exec_engine rfl, complete_inflight (c := c) rfl]
    rfl
  exact runsTo_step h1 (runsTo_step h2 ht)

/-- Everything a step that answers a next state can have done: nothing (an engine turn with no command to complete), a
change of the reset input, a read, a write outside CMD, an illegal CMD write, a command's issue, or its completion. -/
theorem step_cases {s t : State} (h : step s = .next t) :
    (∃ q, t = { s with schedule := q }) ∨
      (∃ level rest, s.schedule = .rst level :: rest ∧ t = resetInput level { s with schedule := rest }) ∨
      (s.rst = false ∧ ∃ off rest, s.schedule = .access (.read off .word) :: rest ∧ off.toNat % 4 = 0 ∧
        t = s.answered rest (.data (memRead off s))) ∨
      (s.rst = false ∧ ∃ off v rest, s.schedule = .access (.write off .word v) :: rest ∧ off.toNat % 4 = 0 ∧
        locate off ≠ .cmd ∧ t = memWrite (locate off) v (s.answered rest .ack)) ∨
      (s.rst = false ∧ ∃ c e rest, s.schedule = cmdWriteEvent c :: rest ∧ decode c = .error e ∧
        t = issueIllegal (s.answered rest .ack)) ∨
      (s.rst = false ∧ ∃ c i rest, s.schedule = cmdWriteEvent c :: rest ∧ decode c = .ok i ∧
        t = issue i (captureOf i) (s.answered rest .ack)) ∨
      (s.rst = false ∧ ∃ r q, s.inflight = some r ∧ (s.schedule = .complete :: q ∨ s.schedule = [] ∧ q = []) ∧
        t = retire (performOf r.cmd r.ops { s with schedule := q, turn := .engine })) := by
  have engine (q : List Event) (hq : s.schedule = .complete :: q ∨ s.schedule = [] ∧ q = [])
      (hn : nextAction s = engineTurn { s with schedule := q }) :
      (∃ q, t = { s with schedule := q }) ∨ (s.rst = false ∧ ∃ r q, s.inflight = some r ∧
        (s.schedule = .complete :: q ∨ s.schedule = [] ∧ q = []) ∧
        t = retire (performOf r.cmd r.ops { s with schedule := q, turn := .engine })) := by
    rw [step, hn] at h
    cases hi : s.inflight with
    | none => simp only [engineTurn, hi] at h; injection h with h; exact .inl ⟨q, h.symm⟩
    | some r =>
      cases hr : s.rst with
      | true => simp only [engineTurn, hi, hr, if_true] at h; injection h with h; exact .inl ⟨q, by rw [← h]⟩
      | false =>
        simp only [engineTurn, hi, hr, Bool.false_eq_true, if_false] at h
        rw [exec_engine (by rfl), complete_inflight (c := r.ops) (by rfl)] at h
        injection h with h
        exact .inr ⟨rfl, r, q, rfl, hq, by rw [← h]⟩
  cases hs : s.schedule with
  | nil =>
    have e : s = { s with schedule := [] } := by rw [← hs]
    have hn : nextAction s = engineTurn s := by rw [nextAction, hs]
    rcases engine [] (.inr ⟨hs, rfl⟩) (by rw [hn, ← e]) with h | ⟨h1, r, q, h2, h3, h4⟩
    · exact .inl h
    · exact .inr (.inr (.inr (.inr (.inr (.inr ⟨h1, r, q, h2, by rwa [hs] at h3, h4⟩)))))
  | cons ev rest =>
    cases ev with
    | rst level =>
      simp only [step, nextAction, hs] at h
      injection h with h
      exact .inr (.inl ⟨level, rest, rfl, h.symm⟩)
    | complete =>
      rcases engine rest (.inl hs) (by rw [nextAction, hs]) with h | ⟨h1, r, q, h2, h3, h4⟩
      · exact .inl h
      · exact .inr (.inr (.inr (.inr (.inr (.inr ⟨h1, r, q, h2, by rwa [hs] at h3, h4⟩)))))
    | access a =>
      rcases Bool.eq_false_or_eq_true s.rst with hr | hr
      · simp [step, nextAction, hs, hr] at h
      · cases hw : a.wellFormed with
        | false => simp [step, nextAction, hs, hr, hostAccess_illegal hw] at h
        | true =>
          cases a with
          | read off width =>
            simp only [Access.wellFormed, Access.wordWide, Access.aligned, Access.width, Access.off, Bool.and_eq_true,
              beq_iff_eq] at hw
            obtain ⟨rfl, ha⟩ := hw
            rw [step_read hr hs ha] at h
            injection h with h
            exact .inr (.inr (.inl ⟨hr, off, rest, rfl, ha, h.symm⟩))
          | write off width v =>
            simp only [Access.wellFormed, Access.wordWide, Access.aligned, Access.width, Access.off, Bool.and_eq_true,
              beq_iff_eq] at hw
            obtain ⟨rfl, ha⟩ := hw
            by_cases hc : locate off = .cmd
            · obtain rfl := eq_cmd_offset ha hc
              cases hd : decode v with
              | error e =>
                rw [step_cmd_illegal hr hs hd] at h
                injection h with h
                exact .inr (.inr (.inr (.inr (.inl ⟨hr, v, e, rest, rfl, hd, h.symm⟩))))
              | ok i =>
                rw [step_cmd_legal hr hs hd, exec_host (by rfl)] at h
                injection h with h
                exact .inr (.inr (.inr (.inr (.inr (.inl ⟨hr, v, i, rest, rfl, hd, h.symm⟩)))))
            · rw [step_write hr hs ha hc] at h
              injection h with h
              exact .inr (.inr (.inr (.inl ⟨hr, off, v, rest, rfl, ha, hc, h.symm⟩)))

theorem nextIsReset_of_soft {s : State} {v : Word} {rest : List Event}
    (hs : s.schedule = .access (.write 0x004#10 .word v) :: rest) (hv : v.getLsbD 0 = true) : s.nextIsReset = true := by
  have : Event.isSoftReset (.access (.write 0x004#10 .word v)) = true := by simpa [Event.isSoftReset] using hv
  simp only [State.nextIsReset, hs, this, Bool.true_or]

theorem nextIsReset_of_release {s : State} {rest : List Event} (hs : s.schedule = .rst false :: rest)
    (hr : s.rst = true) : s.nextIsReset = true := by
  simp [State.nextIsReset, hs, hr]

theorem nextIsEngine_of {s : State} {q : List Event} (hs : s.schedule = .complete :: q ∨ s.schedule = [] ∧ q = []) :
    s.nextIsEngine = true := by
  rcases hs with hs | ⟨hs, _⟩ <;> simp [State.nextIsEngine, hs]

/-- What a step that answers a next state did, with everything it changed. -/
inductive Effect (s t : State) : Prop where
  /-- Nothing but the event it took. -/
  | quiet (q : List Event) (ht : t = { s with schedule := q })
  /-- `rst` was asserted (R240). -/
  | assertReset (rest : List Event) (hs : s.schedule = .rst true :: rest)
      (ht : t = { s with schedule := rest, rst := true, inflight := none })
  /-- A soft reset, or the release of `rst` (R240, R241). -/
  | reset (hn : s.nextIsReset = true) (turn : Agent) (resp : BusResp) (rest : List Event) (e : Event)
      (hs : s.schedule = e :: rest)
      (ht : t = { State.reset with rst := false, turn := turn, resp := resp, schedule := rest })
  /-- A host access that changed nothing: a read, or a write that ID or a reserved offset ignored (R72, R77). -/
  | answered (hr : s.rst = false) (a : Access) (rest : List Event) (r : BusResp) (hs : s.schedule = .access a :: rest)
      (ht : t = s.answered rest r)
  /-- A host write that was refused with an error and did nothing else (R202, R207). -/
  | raised (hr : s.rst = false) (e : Err) (off : Offset) (v : Word) (rest : List Event)
      (hs : s.schedule = .access (.write off .word v) :: rest) (ht : t = raiseErr e (s.answered rest .ack))
  /-- A CTRL write with bit 0 = 0 (R39). -/
  | ctrl (hr : s.rst = false) (v : Word) (rest : List Event)
      (hs : s.schedule = .access (.write 0x004#10 .word v) :: rest) (h0 : v.getLsbD 0 = false)
      (ht : t = { s.answered rest .ack with irqEn := v.getLsbD 1 })
  /-- A STATUS write (R40). -/
  | status (hr : s.rst = false) (v : Word) (rest : List Event)
      (hs : s.schedule = .access (.write 0x008#10 .word v) :: rest)
      (ht : t = writeStatus v (s.answered rest .ack))
  /-- A write of a word of BYTES (R77). -/
  | bytes (hr : s.rst = false) (hi : s.inflight = none) (m : Fin 8) (v : Word) (rest : List Event) (b : ByteString)
      (hs : s.schedule = .access (.write (bwOffset m) .word v) :: rest) (hb : b = setBytesWord s.bytes m v)
      (ht : t = { s.answered rest .ack with bytes := b })
  /-- A write of a word of a register (R77). -/
  | reg (hr : s.rst = false) (hi : s.inflight = none) (n : RegIdx) (k : Fin 10) (v : Word) (rest : List Event)
      (hs : s.schedule = .access (.write (fwOffset n k) .word v) :: rest)
      (ht : t = (s.answered rest .ack).setFWord n k v)
  /-- A command was accepted (R110). -/
  | accepted (hr : s.rst = false) (hi : s.inflight = none) (i : Instr) (c : Word) (rest : List Event) (ops : Captured)
      (hs : s.schedule = cmdWriteEvent c :: rest) (hd : decode c = .ok i) (ha : operandsAdmissible i s = true)
      (ho : captureOf i s = .ok ops) (hw : InFlight.wellFormed ⟨i, ops⟩ = true)
      (ht : t = accept i ops (s.answered rest .ack))
  /-- The command in flight completed (R111). -/
  | completed (hr : s.rst = false) (hn : s.nextIsEngine = true) (r : InFlight) (q : List Event) (f : Vector FReg 8)
      (b : ByteString) (hi : s.inflight = some r)
      (hf : f = (performOf r.cmd r.ops { s with schedule := q, turn := .engine }).f)
      (hb : b = (performOf r.cmd r.ops { s with schedule := q, turn := .engine }).bytes)
      (ht : t = { s with schedule := q, turn := .engine, f := f, bytes := b, inflight := none, done := true })

/-- Every step that answers a next state had one of these effects. -/
theorem step_effect {s t : State} (h : step s = .next t) : Effect s t := by
  rcases step_cases h with ⟨q, rfl⟩ | ⟨level, rest, hs, rfl⟩ | ⟨hr, off, rest, hs, ha, rfl⟩ |
    ⟨hr, off, v, rest, hs, ha, hc, rfl⟩ | ⟨hr, c, e, rest, hs, hd, rfl⟩ | ⟨hr, c, i, rest, hs, hd, rfl⟩ |
    ⟨hr, r, q, hf, hs, rfl⟩
  · exact .quiet q rfl
  · rcases resetInput_cases level { s with schedule := rest } with ⟨rfl, h⟩ | ⟨rfl, h1, h⟩ | ⟨rfl, h1, h⟩
    · exact .assertReset rest hs h
    · exact .quiet rest h
    · exact .reset (nextIsReset_of_release hs h1) s.turn s.resp rest _ hs h
  · exact .answered hr _ rest _ hs rfl
  · rcases memWrite_cases (locate off) v (s.answered rest .ack) with h | ⟨h1, h2, h⟩ | ⟨h1, h2, h⟩ | ⟨h1, h⟩ |
      ⟨h1, h⟩ | ⟨h1, m, h2, h⟩ | ⟨h1, n, k, h2, h⟩
    · exact .answered hr _ rest _ hs h
    · obtain rfl := eq_ctrl_offset ha h1
      refine .reset (nextIsReset_of_soft hs h2) .host .ack rest _ hs (h.trans ?_)
      rw [← hr]
      rfl
    · obtain rfl := eq_ctrl_offset ha h1
      exact .ctrl hr v rest hs h2 h
    · obtain rfl := eq_status_offset ha h1
      exact .status hr v rest hs h
    · exact .raised hr _ off v rest hs h
    · obtain rfl := eq_bwOffset ha h2
      exact .bytes hr h1 m v rest _ hs rfl h
    · obtain rfl := eq_fwOffset ha h2
      exact .reg hr h1 n k v rest hs h
  · exact .raised hr _ _ c rest hs (issueIllegal_eq _)
  · rcases issue_effects i (s.answered rest .ack) with ⟨_, h⟩ | ⟨_, _, h⟩ | ⟨h1, h2, ops, h3, h4, h⟩
    · exact .raised hr _ _ c rest hs h
    · exact .raised hr _ _ c rest hs h
    · rw [operandsAdmissible_answered] at h2
      rw [captureOf_answered] at h3
      exact .accepted hr h1 i c rest ops hs hd h2 h3 h4 h
  · refine .completed hr (nextIsEngine_of hs) r q _ _ hf rfl rfl ?_
    conv_lhs => rw [performOf_control]
    rfl

/-- A run of `k + m` steps is a run of `k`, then one of `m`. -/
theorem run_add (M : Host.Core) (k m : Nat) {s t : M.State} (h : M.run k s = .next t) :
    M.run (k + m) s = M.run m t := by
  induction k generalizing s with
  | zero =>
    rw [Host.Core.run] at h
    injection h with h
    rw [h, Nat.zero_add]
  | succ k ih =>
    rw [Nat.succ_add]
    cases hs : M.step s with
    | next u =>
      rw [run_succ M hs] at h ⊢
      exact ih h
    | fault r =>
      simp only [Host.Core.run, hs] at h
      cases h
    | refused r =>
      simp only [Host.Core.run, hs] at h
      cases h

/-- STATUS reads change nothing but what the bus answered and whose turn it was (R77). -/
theorem run_polls (k : Nat) (s : State) (q : List Event) (hr : s.rst = false)
    (hs : s.schedule = List.replicate k pollEvent ++ q) :
    ∃ (r : BusResp) (a : Agent), Sys2Proof.core.run k s = .next { s with schedule := q, turn := a, resp := r } := by
  induction k generalizing s with
  | zero =>
    refine ⟨s.resp, s.turn, ?_⟩
    have : s.schedule = q := hs
    rw [← this]
    rfl
  | succ k ih =>
    have h1 := step_read (s := s) (off := 8#10) (rest := List.replicate k pollEvent ++ q) hr hs (by decide)
    obtain ⟨r, a, h2⟩ := ih (s.answered (List.replicate k pollEvent ++ q) (.data (memRead 8#10 s))) hr rfl
    exact ⟨r, a, (run_step h1 k).trans h2⟩

end Sys2Proof.Machine
end

