-- ==== Sys2Proof/Tests/Slice0.lean ====
section
/-! SUPPORT. Tests: illegal words and accesses refused, words written out from R101 decoded, one step at a time of the
vectors of 95_test_vectors.md (their ids stand beside the tests), and for each obligation that has hypotheses a witness
that meets them. -/

namespace Sys2Proof.Tests

set_option Elab.async false

open Sys2Proof.Machine

/-! ### Small states -/

/-- A register image from its words, w0 first; the words not given are 0. -/
def img (ws : List Nat) : FReg := Vector.ofFn fun k => BitVec.ofNat 32 (ws.getD k.val 0)

/-- A byte string from its bytes, B[0] first; the bytes not given are 0. -/
def str (bs : List Nat) : ByteString := Vector.ofFn fun k => BitVec.ofNat 8 (bs.getD k.val 0)

/-- The block after reset, with these events to come. -/
def idle (evs : List Event) : State := { State.reset with schedule := evs }

/-- The same with one register and BYTES loaded. -/
def loaded (n : RegIdx) (w : FReg) (b : ByteString) (evs : List Event) : State :=
  ((idle evs).setF n w).setBytes b

/-- The block with this command in flight and these operands captured, the engine's turn being next. -/
def flying (i : Instr) (a b : FReg) (x : ByteString) : State :=
  { idle [.complete] with inflight := some ⟨i, ⟨a, b, x⟩⟩, lastCmd := encode i }

/-- `sqr.32 f1, f0` in flight, with these events to come. -/
def busyWith (evs : List Event) : State :=
  { flying (.sqr32 1 0) (img [9]) zeroReg zeroBytes with schedule := evs }

/-- The block with `rst` asserted. -/
def held (evs : List Event) : State := { idle evs with rst := true }

/-- The outcome is a next state of this kind. -/
def nextIs (o : Host.Outcome State Fault Refusal) (good : State → Bool) : Bool :=
  match o with
  | .next t => good t
  | .fault _ | .refused _ => false

theorem nextIs_iff {o : Host.Outcome State Fault Refusal} {good : State → Bool} :
    nextIs o good = true ↔ ∃ t, o = .next t ∧ good t = true := by
  cases o <;> simp [nextIs]

/-- STATUS reads this in the next state. -/
def statusIs (o : Host.Outcome State Fault Refusal) (w : Word) : Bool := nextIs o fun t => statusWord t == w

/-! ### Ill-formed words and accesses are refused (EN-6 to EN-17, SQ-5, HZ-2) -/

theorem test_opcode_8_refused : legalWord 0x00000008#32 = false := by decide
theorem test_opcode_F_refused : legalWord 0x0000000F#32 = false := by decide
theorem test_reserved_bit_5_refused : legalWord 0x00000020#32 = false := by decide
theorem test_reserved_bit_11_refused : legalWord 0x00000801#32 = false := by decide
theorem test_reserved_bit_15_refused : legalWord 0x00008001#32 = false := by decide
theorem test_reserved_bit_31_refused : legalWord 0x80000001#32 = false := by decide
theorem test_sqr_rs2_refused : legalWord 0x00010002#32 = false := by decide
theorem test_frombytes_rs1_refused : legalWord 0x00001005#32 = false := by decide
theorem test_tobytes_rd_refused : legalWord 0x00000106#32 = false := by decide
theorem test_nop_path_refused : legalWord 0x00000010#32 = false := by decide
theorem test_wipe_path_refused : legalWord 0x00000017#32 = false := by decide
theorem test_nop_rd_refused : legalWord 0x00000100#32 = false := by decide

/-- The decoder refuses each of them under the name of its kind. -/
theorem test_decode_names_the_refusal :
    decode 0x00000008#32 = .error .reservedOpcode ∧ decode 0x0000000F#32 = .error .reservedOpcode ∧
      decode 0x00000020#32 = .error .reservedBits ∧ decode 0x00000801#32 = .error .reservedBits ∧
      decode 0x00008001#32 = .error .reservedBits ∧ decode 0x80000001#32 = .error .reservedBits ∧
      decode 0x00010002#32 = .error .mustBeZero ∧ decode 0x00001005#32 = .error .mustBeZero ∧
      decode 0x00000106#32 = .error .mustBeZero ∧ decode 0x00000010#32 = .error .mustBeZero ∧
      decode 0x00000017#32 = .error .mustBeZero ∧ decode 0x00000100#32 = .error .mustBeZero ∧
      decodeBytes [0x00#8, 0x00#8] = .error .notOneWord := ⟨rfl, rfl, rfl, rfl, rfl, rfl, rfl, rfl, rfl, rfl, rfl, rfl, rfl⟩

theorem test_byte_access_refused : Access.wordWide (.write 0x101#10 .byte 0#32) = false := by decide
theorem test_unaligned_access_refused : Access.aligned (.read 0x102#10 .word) = false := by decide
theorem test_word_access_accepted : Access.wellFormed (.read 0x3FC#10 .word) = true := by decide

/-! ### Decoding, from the pattern of R101 (EN-1 to EN-5 among them) -/

theorem test_decode_nop : decode 0b0000000000000_000_0_000_0_000_000_0_0000#32 = .ok .nop := rfl
theorem test_decode_mul32 : decode 0b0000000000000_111_0_111_0_111_000_0_0001#32 = .ok (.mul32 7 7 7) := rfl
theorem test_decode_mul64 : decode 0b0000000000000_010_0_001_0_011_000_1_0001#32 = .ok (.mul64 3 1 2) := rfl
theorem test_decode_sqr32 : decode 0b0000000000000_000_0_000_0_001_000_0_0010#32 = .ok (.sqr32 1 0) := rfl
theorem test_decode_sqr64 : decode 0b0000000000000_000_0_100_0_101_000_1_0010#32 = .ok (.sqr64 5 4) := rfl
theorem test_decode_mul121666x32 :
    decode 0b0000000000000_000_0_001_0_110_000_0_0011#32 = .ok (.mul121666x32 6 1) := rfl
theorem test_decode_mul121666x64 :
    decode 0b0000000000000_000_0_110_0_101_000_1_0011#32 = .ok (.mul121666x64 5 6) := rfl
theorem test_decode_inv32 : decode 0b0000000000000_000_0_010_0_100_000_0_0100#32 = .ok (.inv32 4 2) := rfl
theorem test_decode_inv64 : decode 0b0000000000000_000_0_100_0_010_000_1_0100#32 = .ok (.inv64 2 4) := rfl
theorem test_decode_frombytes32 : decode 0b0000000000000_000_0_000_0_110_000_0_0101#32 = .ok (.frombytes32 6) := rfl
theorem test_decode_frombytes64 : decode 0b0000000000000_000_0_000_0_011_000_1_0101#32 = .ok (.frombytes64 3) := rfl
theorem test_decode_tobytes32 : decode 0b0000000000000_000_0_010_0_000_000_0_0110#32 = .ok (.tobytes32 2) := rfl
theorem test_decode_tobytes64 : decode 0b0000000000000_000_0_011_0_000_000_1_0110#32 = .ok (.tobytes64 3) := rfl
theorem test_decode_wipe : decode 0b0000000000000_000_0_000_0_000_000_0_0111#32 = .ok .wipe := rfl

/-- EN-1 to EN-5 as the spec writes the words, and the encoder the other way. -/
theorem test_encode_samples :
    encode (.mul64 3 1 2) = 0x00021311#32 ∧ encode (.sqr32 1 0) = 0x00000102#32 ∧
      encode (.frombytes64 3) = 0x00000315#32 ∧ encode (.tobytes64 3) = 0x00003016#32 ∧
      encode (.mul32 7 7 7) = 0x00077701#32 := by decide

/-- EN-1 in its four byte lanes: 11 13 02 00 (R74). -/
theorem test_decode_lanes : decodeBytes [0x11#8, 0x13#8, 0x02#8, 0x00#8] = .ok (.mul64 3 1 2) := rfl

theorem test_decodeTableWord : decodeTableWord 32 0x00021311 = some (.mul64 3 1 2) := rfl

/-- The assembler's form of EN-1. -/
theorem test_asm : asm (.mul64 3 1 2) = "mul.64 f3, f1, f2" := by decide

/-! ### One command, one completion (L2 vectors) -/

/-- MU-8: a negative limb. -/
theorem test_mul32_negative : outcomeF (step (flying (.mul32 2 0 1) (img [0xFFFFFFFF]) (img [3]) zeroBytes)) 2 =
    some (img [0x03FFFFEA, 0x01FFFFFF, 0x03FFFFFF, 0x01FFFFFF, 0x03FFFFFF, 0x01FFFFFF, 0x03FFFFFF, 0x01FFFFFF,
      0x03FFFFFF, 0x01FFFFFF]) := by decide +kernel

/-- MU-4: the fold at 2^255. -/
theorem test_mul32_fold : outcomeF (step (flying (.mul32 2 0 1) (img [0, 0, 0, 0, 0, 1])
    (img [0, 0, 0, 0, 0x02000000]) zeroBytes)) 2 = some (img [0x13]) := by decide +kernel

/-- MU-7. -/
theorem test_mul64_whole : outcomeF (step (flying (.mul64 2 0 1)
    (img [0x03020100, 0x00060504, 0x412100E0, 0x00018161, 0x403C3834, 0x00044844, 0x8B0A8A09, 0x00048C0B,
      0xD1C1B1A1, 0x0001F1E1])
    (img [0xFFFFFFEC, 0x0007FFFF, 0xFFFFFFFF, 0x0007FFFF, 0xFFFFFFFF, 0x0007FFFF, 0xFFFFFFFF, 0x0007FFFF,
      0xFFFFFFFF, 0x0007FFFF]) zeroBytes)) 2 =
    some (img [0xFCFDFEED, 0x0001FAFB, 0xBEDEFF1F, 0x00067E9E, 0xBFC3C7CB, 0x0003B7BB, 0x74F575F6, 0x000373F4,
      0x2E3E4E5E, 0x00060E1E]) := by decide +kernel

/-- MU-4 under LIMB64. -/
theorem test_mul64_fold : outcomeF (step (flying (.mul64 2 0 1) (img [0, 0, 0, 0, 0x04000000])
    (img [0, 0, 0, 0, 0x02000000]) zeroBytes)) 2 = some (img [0x13]) := by decide +kernel

/-- MU-12: ten limbs of 2^27 - 1. -/
theorem test_sqr32_worst_case : outcomeF (step (flying (.sqr32 1 0) (img (List.replicate 10 0x07FFFFFF)) zeroReg
    zeroBytes)) 1 = some (img [0x00001963, 0x0000025E, 0x0000045D, 0x000001F2, 0x00000397, 0x00000186, 0x000002D1,
      0x0000011A, 0x0000020B, 0x000000AE]) := by decide +kernel

/-- SQ-2. -/
theorem test_sqr32_fold : outcomeF (step (flying (.sqr32 1 0) (img [0, 0, 0, 0, 0, 1]) zeroReg zeroBytes)) 1 =
    some (img [0x26]) := by decide +kernel

/-- MU-12: five limbs of 2^54 - 1. -/
theorem test_sqr64_worst_case : outcomeF (step (flying (.sqr64 1 0)
    (img [0xFFFFFFFF, 0x003FFFFF, 0xFFFFFFFF, 0x003FFFFF, 0xFFFFFFFF, 0x003FFFFF, 0xFFFFFFFF, 0x003FFFFF,
      0xFFFFFFFF, 0x003FFFFF]) zeroReg zeroBytes)) 1 =
    some (img [0x0000679D, 0, 0x0000132B, 0, 0x00000FB9, 0, 0x00000C47, 0, 0x000008D5, 0]) := by decide +kernel

/-- SQ-2 under LIMB64. -/
theorem test_sqr64_fold : outcomeF (step (flying (.sqr64 1 0) (img [0, 0, 0, 0, 0x04000000]) zeroReg zeroBytes)) 1 =
    some (img [0x26]) := by decide +kernel

/-- MC-3. -/
theorem test_mul121666x32 : outcomeF (step (flying (.mul121666x32 1 0)
    (img [0x03FFFFF7, 0x01FFFFFF, 0x03FFFFFF, 0x01FFFFFF, 0x03FFFFFF, 0x01FFFFFF, 0x03FFFFFF, 0x01FFFFFF,
      0x03FFFFFF, 0x00FFFFFF]) zeroReg zeroBytes)) 1 = some (img [0x0000EDA1]) := by decide +kernel

/-- MC-2 under LIMB64. -/
theorem test_mul121666x64 : outcomeF (step (flying (.mul121666x64 1 0)
    (img [0xFFFFFFEC, 0x0007FFFF, 0xFFFFFFFF, 0x0007FFFF, 0xFFFFFFFF, 0x0007FFFF, 0xFFFFFFFF, 0x0007FFFF,
      0xFFFFFFFF, 0x0007FFFF]) zeroReg zeroBytes)) 1 =
    some (img [0xFFFE24AB, 0x0007FFFF, 0xFFFFFFFF, 0x0007FFFF, 0xFFFFFFFF, 0x0007FFFF, 0xFFFFFFFF, 0x0007FFFF,
      0xFFFFFFFF, 0x0007FFFF]) := by decide +kernel

/-- IV-6. -/
theorem test_inv32 : outcomeF (step (flying (.inv32 1 0) (img [9]) zeroReg zeroBytes)) 1 =
    some (img [0x0071C712, 0x011C71C7, 0x038E38E3, 0x00E38E38, 0x0071C71C, 0x011C71C7, 0x038E38E3, 0x00E38E38,
      0x0071C71C, 0x011C71C7]) := by decide +kernel

/-- IV-3: the inverse of 0 is 0. -/
theorem test_inv32_zero : outcomeF (step (flying (.inv32 1 0) zeroReg zeroReg zeroBytes)) 1 = some zeroReg := by
  decide +kernel

/-- IV-6 under LIMB64. -/
theorem test_inv64 : outcomeF (step (flying (.inv64 1 0) (img [9]) zeroReg zeroBytes)) 1 =
    some (img [0x1C71C712, 0x000471C7, 0xE38E38E3, 0x00038E38, 0x1C71C71C, 0x000471C7, 0xE38E38E3, 0x00038E38,
      0x1C71C71C, 0x000471C7]) := by decide +kernel

/-- FB-5. -/
theorem test_frombytes32 : outcomeF (step (flying (.frombytes32 0) zeroReg zeroReg (str (List.range 32)))) 0 =
    some (img [0x03020100, 0x01814100, 0x012100E0, 0x00605850, 0x003C3834, 0x01121110, 0x030A8A09, 0x012302E2,
      0x01C1B1A1, 0x007C7874]) := by decide +kernel

/-- FB-4: bit 255 is dropped. -/
theorem test_frombytes32_top_bit : outcomeF (step (flying (.frombytes32 0) zeroReg zeroReg
    (str (List.replicate 31 0 ++ [0x80])))) 0 = some zeroReg := by decide +kernel

/-- FB-5 under LIMB64. -/
theorem test_frombytes64 : outcomeF (step (flying (.frombytes64 0) zeroReg zeroReg (str (List.range 32)))) 0 =
    some (img [0x03020100, 0x00060504, 0x412100E0, 0x00018161, 0x403C3834, 0x00044844, 0x8B0A8A09, 0x00048C0B,
      0xD1C1B1A1, 0x0001F1E1]) := by decide +kernel

/-- FB-3: the encoding of p is not reduced. -/
theorem test_frombytes64_unreduced : outcomeF (step (flying (.frombytes64 0) zeroReg zeroReg
    (str ([0xED] ++ List.replicate 30 0xFF ++ [0x7F])))) 0 =
    some (img [0xFFFFFFED, 0x0007FFFF, 0xFFFFFFFF, 0x0007FFFF, 0xFFFFFFFF, 0x0007FFFF, 0xFFFFFFFF, 0x0007FFFF,
      0xFFFFFFFF, 0x0007FFFF]) := by decide +kernel

/-- TB-11: a negative value. -/
theorem test_tobytes32_negative : outcomeBytes (step (flying (.tobytes32 0) (img [0xF8000001]) zeroReg zeroBytes)) =
    some (str ([0xEE, 0xFF, 0xFF, 0xF7] ++ List.replicate 27 0xFF ++ [0x7F])) := by decide +kernel

/-- TB-5: limb 9 is at 2^230. -/
theorem test_tobytes32_top_limb : outcomeBytes (step (flying (.tobytes32 0)
    (img [0, 0, 0, 0, 0, 0, 0, 0, 0, 0x02000000]) zeroReg zeroBytes)) = some (str [0x13]) := by decide +kernel

/-- TB-3: p + 18 becomes 18. -/
theorem test_tobytes64_reduced : outcomeBytes (step (flying (.tobytes64 0)
    (img [0xFFFFFFFF, 0x0007FFFF, 0xFFFFFFFF, 0x0007FFFF, 0xFFFFFFFF, 0x0007FFFF, 0xFFFFFFFF, 0x0007FFFF,
      0xFFFFFFFF, 0x0007FFFF]) zeroReg zeroBytes)) = some (str [0x12]) := by decide +kernel

/-- HZ-5: the words of radix32(2^26) read as LIMB64. -/
theorem test_tobytes64_other_view : outcomeBytes (step (flying (.tobytes64 0) (img [0, 1]) zeroReg zeroBytes)) =
    some (str [0, 0, 0, 0, 1]) := by decide +kernel

/-- CT-1. -/
theorem test_nop_completes : nextIs (step (flying .nop zeroReg zeroReg zeroBytes)) (fun t =>
    statusWord t == 0x00000002#32 && t.lastCmd == 0x00000000#32 && t.f == State.reset.f) = true := by decide +kernel

/-- CT-2: WIPE keeps ERR and ERRCODE, and sets DONE again. -/
theorem test_wipe_completes : nextIs (step { (flying .wipe zeroReg zeroReg zeroBytes).setF 7 (img [5]) with
      done := true, err := true, errCode := 1#4, bytes := str [1] }) (fun t =>
    statusWord t == 0x00000106#32 && t.lastCmd == 0x00000007#32 && t.f == Vector.replicate 8 zeroReg &&
      t.bytes == zeroBytes) = true := by decide +kernel

/-! ### Issue, errors, the window -/

/-- TB-8, TB-9: a LIMB32 limb of 2^27 or -2^27 is refused, with code 3. -/
theorem test_tobytes32_range :
    statusIs (step (loaded 0 (img [0x08000000]) zeroBytes [cmdWriteEvent 0x00000006#32])) 0x00000304#32 = true ∧
      statusIs (step (loaded 0 (img [0xF8000000]) zeroBytes [cmdWriteEvent 0x00000006#32])) 0x00000304#32 = true := by
  decide +kernel

/-- TB-10 and PG-4 step 7: 2^54 is refused under LIMB64, 2^27 is not. -/
theorem test_limb64_range :
    statusIs (step (loaded 0 (img [0, 0x00400000]) zeroBytes [cmdWriteEvent 0x00000016#32])) 0x00000304#32 = true ∧
      statusIs (step (loaded 4 (img [0x08000000]) zeroBytes [cmdWriteEvent 0x00004512#32])) 0x00000001#32 = true := by
  decide +kernel

/-- ER-1: a busy block answers CMD_WHILE_BUSY to an illegal word. -/
theorem test_busy_beats_illegal :
    statusIs (step (busyWith [cmdWriteEvent 0x00010002#32])) 0x00000205#32 = true := by decide +kernel

/-- ER-2: an illegal word on an idle block, and the code of the first error stays. -/
theorem test_first_code_stays :
    statusIs (step (idle [cmdWriteEvent 0x00000008#32])) 0x00000104#32 = true ∧
      statusIs (step { idle [cmdWriteEvent 0x00044501#32] with
        err := true, errCode := 1#4, f := Vector.replicate 8 (img [0x08000000]) }) 0x00000104#32 = true ∧
      statusIs (step { idle clrst with err := true, errCode := 1#4, done := true }) 0x00000000#32 = true := by
  decide +kernel

/-- ER-4: an operand write while busy is dropped, with code 4. -/
theorem test_write_while_busy : nextIs (step (busyWith [writeEvent 0x180#10 0x12345678#32])) (fun t =>
    statusWord t == 0x00000405#32 && t.f == State.reset.f && t.busy) = true := by decide +kernel

/-- ER-5: STATUS and CTRL writes are no error while busy. -/
theorem test_control_writes_while_busy :
    statusIs (step (busyWith [writeEvent 0x008#10 6#32])) 0x00000001#32 = true ∧
      nextIs (step (busyWith [writeEvent 0x004#10 2#32])) (fun t => t.irqEn && !t.err && t.busy) = true := by
  decide +kernel

/-- PG-6: a soft reset with bit 1 set abandons the command and leaves IRQ_EN = 0. -/
theorem test_soft_reset : nextIs (step (busyWith [writeEvent 0x004#10 3#32])) (fun t =>
    t == { State.reset with resp := .ack }) = true := by decide +kernel

/-- HZ-3 and HZ-4. -/
theorem test_reserved_and_id : memRead 0x010#10 State.reset = 0#32 ∧ memRead 0x128#10 State.reset = 0#32 ∧
    memRead 0x000#10 State.reset = 0x25510100#32 ∧ locate 0x3FC#10 = .reserved := by decide

/-- HZ-2: a bus error is a fault of the host's step. -/
theorem test_bus_error : step (idle [.access (.write 0x101#10 .byte 0#32)]) = .fault (.busError 0#32) := rfl

/-- Byte order: B[0] to B[3] are the lanes of BW[0], the first lowest (PG-5's BW). -/
theorem test_byte_lanes : bytesWord (str (List.range 32)) 0 = 0x03020100#32 ∧
    bytesWord (str (List.range 32)) 7 = 0x1F1E1D1C#32 := by decide

/-- PG-6: the interrupt follows DONE with IRQ_EN = 1, and not without it. -/
theorem test_irq : nextIs (step { flying .nop zeroReg zeroReg zeroBytes with irqEn := true }) State.irq = true ∧
    nextIs (step (flying .nop zeroReg zeroReg zeroBytes)) State.irq = false := by decide +kernel

/-- The word given to `withFetchWord` has its issue at the very next step. -/
theorem test_withFetchWord : nextIs (step (State.reset.withFetchWord 32 0x00000001)) (fun t =>
    t.inflight == some ⟨.mul32 0 0 0, Captured.zero⟩ && t.lastCmd == 1#32) = true := by decide +kernel

/-! ### Witnesses: each obligation's hypotheses are met -/

/-- A busy state that meets the invariant. -/
theorem busyWith_inv (evs : List Event) : (busyWith evs).Inv :=
  ⟨⟨fun _ => rfl, fun _ => rfl⟩, show (0#4).toNat ≤ 4 by decide, legalWord_encode (.sqr32 1 0),
    fun r h => by obtain rfl := Option.some.inj h; exact ⟨by decide +kernel, rfl⟩, fun h => nomatch h⟩

theorem witness_ResetStateIsAllZero :
    (∃ (s : State) (v : Word), s.rst = false ∧ v.getLsbD 0 = true ∧
      s.schedule = .access (.write 0x004#10 .word v) :: []) ∧
    (∃ s : State, s.rst = true ∧ s.schedule = .rst false :: []) :=
  ⟨⟨busyWith [writeEvent 0x004#10 1#32], 1#32, rfl, rfl, rfl⟩, held [.rst false], rfl, rfl⟩

theorem witness_SoftResetLeavesResetState : ∃ (s : State) (v : Word), s.rst = false ∧ v.getLsbD 0 = true ∧
    s.schedule = .access (.write 0x004#10 .word v) :: [] ∧ s.inflight ≠ none :=
  ⟨busyWith [writeEvent 0x004#10 0xFFFFFFFF#32], 0xFFFFFFFF#32, rfl, rfl, rfl, by decide +kernel⟩

theorem witness_HardResetAbandonsAndClears :
    (∃ s : State, s.schedule = .rst true :: [] ∧ s.inflight ≠ none) ∧
    (∃ (s : State) (a : Access), s.rst = true ∧ s.schedule = .access a :: []) ∧
    (∃ s : State, s.rst = true ∧ s.schedule = .complete :: []) ∧
    (∃ s : State, s.rst = true ∧ s.schedule = .rst false :: []) :=
  ⟨⟨busyWith [.rst true], rfl, by decide +kernel⟩, ⟨held [.access (.read 0 .word)], _, rfl, rfl⟩,
    ⟨held [.complete], rfl, rfl⟩, ⟨held [.rst false], rfl, rfl⟩⟩

theorem witness_StepKeepsInvariant : ∃ s t : State, s.Inv ∧ step s = .next t ∧ s.inflight ≠ none ∧ t.inflight = none :=
  ⟨busyWith [.complete], _, busyWith_inv _, rfl, by decide +kernel, rfl⟩

theorem witness_IdReadsConstantAndIgnoresWrites :
    (∃ s : State, s.rst = false ∧ s.schedule = .access (.read 0x000#10 .word) :: []) ∧
    (∃ (s : State) (v : Word), s.rst = false ∧ s.schedule = .access (.write 0x000#10 .word v) :: []) :=
  ⟨⟨idle [readEvent 0x000#10], rfl, rfl⟩, idle [writeEvent 0x000#10 0xFFFFFFFF#32], _, rfl, rfl⟩

theorem witness_CtrlReadsAndWritesIrqEn :
    (∃ s : State, s.rst = false ∧ s.schedule = .access (.read 0x004#10 .word) :: []) ∧
    (∃ (s : State) (v : Word), s.rst = false ∧ v.getLsbD 0 = false ∧
      s.schedule = .access (.write 0x004#10 .word v) :: []) ∧
    (∃ (s : State) (v : Word), s.rst = false ∧ v.getLsbD 0 = true ∧
      s.schedule = .access (.write 0x004#10 .word v) :: []) :=
  ⟨⟨busyWith [readEvent 0x004#10], rfl, rfl⟩, ⟨busyWith [writeEvent 0x004#10 0xFFFFFFFE#32], _, rfl, rfl, rfl⟩,
    ⟨idle [writeEvent 0x004#10 0xFFFFFFFF#32], 0xFFFFFFFF#32, rfl, rfl, rfl⟩⟩

theorem witness_StatusReadLayout : ∃ s : State, s.rst = false ∧
    s.schedule = .access (.read 0x008#10 .word) :: [] ∧ s.inflight ≠ none ∧ s.err = true :=
  ⟨{ busyWith [pollEvent] with err := true, errCode := 4#4 }, rfl, rfl, by decide +kernel, rfl⟩

theorem witness_StatusWriteOneClears : ∃ (s : State) (v : Word), s.rst = false ∧
    s.schedule = .access (.write 0x008#10 .word v) :: [] ∧ s.done = true ∧ s.err = true :=
  ⟨{ idle clrst with done := true, err := true, errCode := 1#4 }, _, rfl, rfl, rfl, rfl⟩

/-- Both ends of every reserved range of R71, for the first and the last register. -/
theorem witness_ReservedOffsetsReadZeroIgnoreWrites :
    (∀ off ∈ [0x010#10, 0x01C#10, 0x040#10, 0x0FC#10, 0x128#10, 0x13C#10, 0x2E8#10, 0x2FC#10, 0x300#10, 0x3FC#10],
      off.toNat % 4 = 0 ∧ (0x010 ≤ off.toNat ∧ off.toNat ≤ 0x01C ∨ 0x040 ≤ off.toNat ∧ off.toNat ≤ 0x0FC ∨
        (∃ n, n ≤ 7 ∧ 0x100 + 0x40 * n + 0x28 ≤ off.toNat ∧ off.toNat ≤ 0x100 + 0x40 * n + 0x3C) ∨
        0x300 ≤ off.toNat ∧ off.toNat ≤ 0x3FC)) ∧
    (∃ s : State, s.rst = false ∧ s.schedule = .access (.read 0x128#10 .word) :: []) ∧
    (∃ (s : State) (v : Word), s.rst = false ∧ s.schedule = .access (.write 0x3FC#10 .word v) :: []) :=
  ⟨by
    simp only [List.mem_cons, List.not_mem_nil, or_false]
    rintro off (rfl | rfl | rfl | rfl | rfl | rfl | rfl | rfl | rfl | rfl)
    · exact ⟨rfl, .inl (by decide)⟩
    · exact ⟨rfl, .inl (by decide)⟩
    · exact ⟨rfl, .inr (.inl (by decide))⟩
    · exact ⟨rfl, .inr (.inl (by decide))⟩
    · exact ⟨rfl, .inr (.inr (.inl ⟨0, by decide⟩))⟩
    · exact ⟨rfl, .inr (.inr (.inl ⟨0, by decide⟩))⟩
    · exact ⟨rfl, .inr (.inr (.inl ⟨7, by decide⟩))⟩
    · exact ⟨rfl, .inr (.inr (.inl ⟨7, by decide⟩))⟩
    · exact ⟨rfl, .inr (.inr (.inr (by decide)))⟩
    · exact ⟨rfl, .inr (.inr (.inr (by decide)))⟩,
    ⟨idle [readEvent 0x128#10], rfl, rfl⟩, idle [writeEvent 0x3FC#10 0xFFFFFFFF#32], _, rfl, rfl⟩

theorem witness_WindowReadsReturnRegisters :
    (∃ s : State, s.rst = false ∧ s.schedule = .access (.read 0x00C#10 .word) :: []) ∧
    (∀ m ∈ [(0 : Fin 8), 7], ∃ s : State, s.rst = false ∧
      s.schedule = .access (.read (BitVec.ofNat 10 (0x020 + 4 * m.val)) .word) :: []) ∧
    (∀ n ∈ [(0 : RegIdx), 7], ∀ k ∈ [(0 : Fin 10), 9], ∃ s : State, s.rst = false ∧
      s.schedule = .access (.read (BitVec.ofNat 10 (0x100 + 0x40 * n.val + 4 * k.val)) .word) :: []) :=
  ⟨⟨idle [readEvent 0x00C#10], rfl, rfl⟩, fun m _ => ⟨idle [readEvent (bwOffset m)], rfl, rfl⟩,
    fun n _ k _ => ⟨idle [readEvent (fwOffset n k)], rfl, rfl⟩⟩

theorem witness_ReadsHaveNoSideEffect : ∃ (s : State) (off : Offset), s.rst = false ∧ off.toNat % 4 = 0 ∧
    s.schedule = .access (.read off .word) :: .access (.read off .word) :: [] :=
  ⟨busyWith [pollEvent, pollEvent], 0x008#10, rfl, rfl, rfl⟩

theorem witness_IdleOperandWriteStoresOneWord :
    (∀ n ∈ [(0 : RegIdx), 7], ∀ k ∈ [(0 : Fin 10), 9], ∃ (s : State) (v : Word), s.rst = false ∧ s.inflight = none ∧
      s.schedule = .access (.write (BitVec.ofNat 10 (0x100 + 0x40 * n.val + 4 * k.val)) .word v) :: []) ∧
    (∀ m ∈ [(0 : Fin 8), 7], ∃ (s : State) (v : Word), s.rst = false ∧ s.inflight = none ∧
      s.schedule = .access (.write (BitVec.ofNat 10 (0x020 + 4 * m.val)) .word v) :: []) :=
  ⟨fun n _ k _ => ⟨idle [writeEvent (fwOffset n k) 5#32], 5#32, rfl, rfl, rfl⟩,
    fun m _ => ⟨idle [writeEvent (bwOffset m) 5#32], 5#32, rfl, rfl, rfl⟩⟩

theorem witness_BusyOperandWriteDroppedReadOld :
    (∀ n ∈ [(0 : RegIdx), 7], ∀ k ∈ [(0 : Fin 10), 9], ∀ v : Word,
      (∃ s : State, s.rst = false ∧ s.inflight ≠ none ∧
        s.schedule = .access (.write (BitVec.ofNat 10 (0x100 + 0x40 * n.val + 4 * k.val)) .word v) :: []) ∧
      ∃ s : State, s.rst = false ∧ s.inflight ≠ none ∧
        s.schedule = .access (.read (BitVec.ofNat 10 (0x100 + 0x40 * n.val + 4 * k.val)) .word) :: []) ∧
    (∀ m ∈ [(0 : Fin 8), 7], ∀ v : Word,
      (∃ s : State, s.rst = false ∧ s.inflight ≠ none ∧
        s.schedule = .access (.write (BitVec.ofNat 10 (0x020 + 4 * m.val)) .word v) :: []) ∧
      ∃ s : State, s.rst = false ∧ s.inflight ≠ none ∧
        s.schedule = .access (.read (BitVec.ofNat 10 (0x020 + 4 * m.val)) .word) :: []) ∧
    (∃ s t : State, step s = .next t ∧ t.inflight ≠ none ∧ s.inflight = none) :=
  ⟨fun n _ k _ v => ⟨⟨busyWith [writeEvent (fwOffset n k) v], rfl, Option.some_ne_none _, rfl⟩,
      busyWith [readEvent (fwOffset n k)], rfl, Option.some_ne_none _, rfl⟩,
    fun m _ v => ⟨⟨busyWith [writeEvent (bwOffset m) v], rfl, Option.some_ne_none _, rfl⟩,
      busyWith [readEvent (bwOffset m)], rfl, Option.some_ne_none _, rfl⟩,
    ⟨idle [cmdWriteEvent 0x00000007#32], _, rfl, Option.some_ne_none _, rfl⟩⟩

theorem witness_IllegalAccessIsBusError :
    (∃ (s : State) (a : Access), s.rst = false ∧ s.schedule = .access a :: [] ∧ a.width ≠ .word ∧
      a.off.toNat % 4 = 0) ∧
    (∃ (s : State) (a : Access), s.rst = false ∧ s.schedule = .access a :: [] ∧ a.width = .word ∧
      a.off.toNat % 4 ≠ 0) :=
  ⟨⟨idle [.access (.read 0x100#10 .double)], _, rfl, rfl, by decide, rfl⟩,
    idle [.access (.write 0x3FF#10 .word 0#32)], _, rfl, rfl, rfl, by decide⟩

theorem witness_WindowRoutesAddresses :
    (∃ (a : Nat) (off : Offset), Config.mmBase + off.toNat = a ∧ off = 0x3FF#10) ∧
    (∃ a : Nat, Config.mmBase + 0x400 ≤ a) := ⟨⟨_, _, rfl, rfl⟩, _, le_rfl⟩

theorem witness_ByteLanesAreLittleEndian : ∀ m ∈ [(0 : Fin 8), 7], ∃ s : State, s.rst = false ∧
    s.schedule = .access (.read (BitVec.ofNat 10 (0x020 + 4 * m.val)) .word) :: [] :=
  fun m _ => ⟨loaded 0 zeroReg (str (List.range 32)) [readEvent (bwOffset m)], rfl, rfl⟩

theorem witness_LoadSequencesLoadExactly :
    (∃ (s : State) (b : ByteString), s.rst = false ∧ s.inflight = none ∧ s.schedule = ldbytes b ++ [] ∧ s.bytes ≠ b) ∧
    (∃ (s : State) (n : RegIdx) (w : FReg), s.rst = false ∧ s.inflight = none ∧ s.schedule = ldfe n w ++ [] ∧
      s.getF n ≠ w) :=
  ⟨⟨idle (ldbytes (str [1])), str [1], rfl, rfl, (List.append_nil _).symm, by decide +kernel⟩,
    ⟨idle (ldfe 7 (img [9])), 7, img [9], rfl, rfl, (List.append_nil _).symm, by decide +kernel⟩⟩

theorem witness_IllegalWordsAreRejected : ∃ (s : State) (c : Word), s.rst = false ∧ s.inflight = none ∧
    legalWord c = false ∧ s.schedule = .access (.write 0x00C#10 .word c) :: [] :=
  ⟨idle [cmdWriteEvent 0x00010002#32], _, rfl, rfl, by decide, rfl⟩

theorem witness_IssueChecksInOrder :
    (∃ (s : State) (c : Word), s.rst = false ∧ s.schedule = .access (.write 0x00C#10 .word c) :: [] ∧
      s.inflight ≠ none ∧ legalWord c = false) ∧
    (∃ (s : State) (c : Word), s.rst = false ∧ s.schedule = .access (.write 0x00C#10 .word c) :: [] ∧
      s.inflight = none ∧ legalWord c = false) ∧
    (∃ (s : State) (i : Instr), s.rst = false ∧ s.schedule = .access (.write 0x00C#10 .word (encode i)) :: [] ∧
      s.inflight = none ∧ i.op = .tobytes ∧ adm i.path (s.getF i.rs1) = false) ∧
    (∃ (s : State) (i : Instr), s.rst = false ∧ s.schedule = .access (.write 0x00C#10 .word (encode i)) :: [] ∧
      s.inflight = none ∧ i.op = .mul ∧ adm i.path (s.getF i.rs1) = true ∧ adm i.path (s.getF i.rs2) = false) ∧
    (∃ (s t : State) (v : Word), s.err = false ∧ s.schedule = .access (.write 0x020#10 .word v) :: [] ∧
      step s = .next t ∧ t.err = true) :=
  ⟨⟨busyWith [cmdWriteEvent 0x00010002#32], _, rfl, rfl, by decide +kernel, by decide⟩,
    ⟨idle [cmdWriteEvent 0x00000008#32], _, rfl, rfl, rfl, by decide⟩,
    ⟨loaded 0 (img [0x08000000]) zeroBytes [cmdWriteEvent (encode (.tobytes32 0))], .tobytes32 0, rfl, rfl, rfl, rfl,
      by decide +kernel⟩,
    ⟨loaded 1 (img [0xF8000000]) zeroBytes [cmdWriteEvent (encode (.mul32 2 0 1))], .mul32 2 0 1, rfl, rfl, rfl, rfl,
      by decide +kernel, by decide +kernel⟩,
    ⟨busyWith [writeEvent 0x020#10 5#32], _, _, rfl, rfl, rfl, rfl⟩⟩

theorem witness_ErrorsArePrecise : ∃ s t : State, s.err = false ∧ step s = .next t ∧ t.err = true :=
  ⟨idle [cmdWriteEvent 0x00000008#32], _, rfl, rfl, rfl⟩

theorem witness_FirstErrorCodeSticks : ∃ s t : State, s.err = true ∧ step s = .next t :=
  ⟨{ idle [cmdWriteEvent 0x00000020#32] with err := true, errCode := 1#4 }, _, rfl, rfl⟩

theorem witness_IrqFollowsDoneAndErr :
    (∃ (s t : State) (v : Word), s.schedule = .access (.write 0x008#10 .word v) :: [] ∧ v.getLsbD 1 = true ∧
      v.getLsbD 2 = true ∧ step s = .next t ∧ s.irq = true) ∧
    (∃ (s t : State) (v : Word), s.schedule = .access (.write 0x004#10 .word v) :: [] ∧ v.getLsbD 0 = false ∧
      v.getLsbD 1 = false ∧ step s = .next t ∧ s.irq = true) ∧
    (∃ s t : State, s.nextIsReset = true ∧ step s = .next t ∧ s.irq = true) :=
  ⟨⟨{ idle clrst with irqEn := true, done := true }, _, _, rfl, rfl, rfl, rfl, rfl⟩,
    ⟨{ idle [writeEvent 0x004#10 0#32] with irqEn := true, err := true }, _, _, rfl, rfl, rfl, rfl, rfl⟩,
    ⟨{ idle [writeEvent 0x004#10 1#32] with irqEn := true, done := true }, _, rfl, rfl, rfl⟩⟩

theorem witness_EncodeOfDecodeIsSame : ∃ (c : Word) (i : Instr), decode c = .ok i := ⟨0x00077701#32, _, rfl⟩

theorem witness_DecodesExactlyTableRows :
    (∃ (c : Word) (f : Form) (i : Instr), f ∈ forms ∧ f.encodes c = true ∧ decode c = .ok i) ∧
    (∃ (c : Word) (f g : Form), f ∈ forms ∧ g ∈ forms ∧ f.encodes c = true ∧ g.encodes c = true) :=
  ⟨⟨0x00077701#32, ⟨"mul.32", 0x00000001#32, 0xFFF888FF#32⟩, _, by decide, by decide, rfl⟩,
    ⟨0x00000007#32, ⟨"wipe", 0x00000007#32, 0xFFFFFFFF#32⟩, ⟨"wipe", 0x00000007#32, 0xFFFFFFFF#32⟩, by decide,
      by decide, by decide, by decide⟩⟩

theorem witness_StepRunsDecodedCommand :
    (∃ (s : State) (c : Word) (i : Instr), s.rst = false ∧ s.schedule = .access (.write 0x00C#10 .word c) :: [] ∧
      decode c = .ok i) ∧
    (∃ (w : Nat) (i : Instr), decodeTableWord 32 w = some i) :=
  ⟨⟨idle [cmdWriteEvent 0x00021311#32], _, _, rfl, rfl, rfl⟩, 0x00021311, _, rfl⟩

theorem witness_EngineTurnCompletesInFlight :
    (∃ (s : State) (r : InFlight), s.rst = false ∧ s.schedule = .complete :: [] ∧ s.inflight = some r) ∧
    (∃ (s : State) (r : InFlight), s.rst = false ∧ s.schedule = [] ∧ s.inflight = some r) ∧
    (∃ s : State, s.schedule = .complete :: [] ∧ s.inflight = none) ∧
    (∃ s : State, s.schedule = [] ∧ s.inflight = none) :=
  ⟨⟨busyWith [.complete], _, rfl, rfl, rfl⟩, ⟨busyWith [], _, rfl, rfl, rfl⟩, ⟨idle [.complete], rfl, rfl⟩,
    ⟨State.reset, rfl, rfl⟩⟩

/-- Limbs at the ends of what each path admits: 2^27 - 1 and -(2^27 - 1) under LIMB32, 2^54 - 1 under LIMB64. -/
theorem witness_MulIsAccepted : ∃ s : State, s.turn = .host ∧ s.inflight = none ∧ adm32 (s.getF 1) = true ∧
    adm32 (s.getF 2) = true ∧ adm64 (s.getF 3) = true ∧ s.getF 1 = img [0x07FFFFFF] ∧ s.getF 2 = img [0xF8000001] ∧
    s.getF 3 = img [0xFFFFFFFF, 0x003FFFFF] :=
  ⟨(((idle []).setF 1 (img [0x07FFFFFF])).setF 2 (img [0xF8000001])).setF 3 (img [0xFFFFFFFF, 0x003FFFFF]), by
    decide +kernel⟩

theorem witness_OneOperandCommandsAreAccepted : ∃ s : State, s.turn = .host ∧ s.inflight = none ∧
    adm32 (s.getF 0) = true ∧ adm64 (s.getF 0) = true := ⟨loaded 0 (img [9]) zeroBytes [], by decide +kernel⟩

theorem witness_UntestedCommandsAreAccepted : ∃ s : State, s.turn = .host ∧ s.inflight = none ∧
    adm32 (s.getF 0) = false := ⟨loaded 0 (img [0x08000000]) (str [255]) [], by decide +kernel⟩

theorem witness_CompletionFrameInWindow :
    (∃ (i : Instr) (off : Offset), i ≠ .wipe ∧ off.toNat % 4 = 0 ∧ off ≠ 0x008#10 ∧ i.writesF = true ∧
      ∀ k : Fin 10, off ≠ BitVec.ofNat 10 (0x100 + 0x40 * i.rd.val + 4 * k.val)) ∧
    (∃ (i : Instr) (off : Offset), i ≠ .wipe ∧ off.toNat % 4 = 0 ∧ off ≠ 0x008#10 ∧ i.op = .tobytes ∧
      ∀ m : Fin 8, off ≠ BitVec.ofNat 10 (0x020 + 4 * m.val)) ∧
    (∃ (i : Instr) (off : Offset), i ≠ .wipe ∧ off.toNat % 4 = 0 ∧ off ≠ 0x008#10 ∧ i = .nop) :=
  ⟨⟨.mul32 0 1 2, 0x140#10, by decide⟩, ⟨.tobytes64 7, 0x100#10, by decide⟩, ⟨.nop, 0x00C#10, by decide⟩⟩

theorem witness_ToBytesIsCanonical : ∃ (i : Instr) (rs1 : RegIdx), i = .tobytes32 rs1 ∨ i = .tobytes64 rs1 :=
  ⟨.tobytes64 7, 7, .inr rfl⟩

/-- All four cases of the round trip: below p, at p, and the same with bit 255 set. -/
theorem witness_ByteRoundTrip :
    (∃ s : State, s.rst = false ∧ s.inflight = none ∧ s.schedule = cmdWriteEvent (encode (.frombytes32 7)) ::
      .complete :: cmdWriteEvent (encode (.tobytes32 7)) :: .complete :: []) ∧
    (∃ b : ByteString, (b[31]).getLsbD 7 = false ∧ intOfBytes b + 1 = Config.p) ∧
    (∃ b : ByteString, (b[31]).getLsbD 7 = false ∧ Config.p = intOfBytes b) ∧
    (∃ b : ByteString, (b[31]).getLsbD 7 = true ∧ intOfBytes b - 2 ^ 255 < Config.p) ∧
    (∃ b : ByteString, (b[31]).getLsbD 7 = true ∧ Config.p ≤ intOfBytes b - 2 ^ 255) :=
  ⟨⟨idle [cmdWriteEvent (encode (.frombytes32 7)), .complete, cmdWriteEvent (encode (.tobytes32 7)), .complete], rfl,
      rfl, rfl⟩,
    ⟨str ([0xEC] ++ List.replicate 30 0xFF ++ [0x7F]), by decide +kernel⟩,
    ⟨str ([0xED] ++ List.replicate 30 0xFF ++ [0x7F]), by decide +kernel⟩,
    ⟨str (List.replicate 31 0 ++ [0x80]), by decide +kernel⟩, ⟨str (List.replicate 32 0xFF), by decide +kernel⟩⟩

theorem witness_PathsAgreeAtTheEncoding : ∃ s₁ s₂ : State, s₁.rst = false ∧ s₁.inflight = none ∧
    s₁.schedule = cmdWriteEvent (encode (.frombytes32 0)) :: .complete ::
      cmdWriteEvent (encode (.tobytes32 0)) :: .complete :: [] ∧
    s₂ = { s₁ with schedule := cmdWriteEvent (encode (.frombytes64 0)) :: .complete ::
      cmdWriteEvent (encode (.tobytes64 0)) :: .complete :: [] } :=
  ⟨loaded 0 zeroReg (str (List.range 32)) [cmdWriteEvent (encode (.frombytes32 0)), .complete,
    cmdWriteEvent (encode (.tobytes32 0)), .complete], _, rfl, rfl, rfl, rfl⟩

theorem witness_PathConversionIsCanonical : ∃ s : State, s.rst = false ∧ s.inflight = none ∧
    adm (Instr.tobytes32 0).path (s.getF 0) = true ∧
    s.schedule = cmdWriteEvent (encode (.tobytes32 0)) :: .complete ::
      cmdWriteEvent (encode (.frombytes64 0)) :: .complete :: [] :=
  ⟨loaded 0 (img [0xFFFFFFFF]) zeroBytes [cmdWriteEvent (encode (.tobytes32 0)), .complete,
    cmdWriteEvent (encode (.frombytes64 0)), .complete], rfl, rfl, by decide +kernel, rfl⟩

/-- Operands of the two paths that are congruent but not equal as integers: -1 and p - 1. -/
theorem witness_PathsAgreeOnArithmetic : ∃ c d : Captured, val32 c.a ≡ (val64 d.a : Int) [ZMOD (Config.p : Int)] ∧
    val32 c.b ≡ (val64 d.b : Int) [ZMOD (Config.p : Int)] ∧ val32 c.a ≠ (val64 d.a : Int) :=
  ⟨⟨img [0xFFFFFFFF], img [9], zeroBytes⟩,
    ⟨img [0xFFFFFFEC, 0x0007FFFF, 0xFFFFFFFF, 0x0007FFFF, 0xFFFFFFFF, 0x0007FFFF, 0xFFFFFFFF, 0x0007FFFF,
      0xFFFFFFFF, 0x0007FFFF], img [9], zeroBytes⟩, by unfold Int.ModEq; decide +kernel⟩

theorem witness_MulAlgebra :
    (∃ mul m24 : Instr, mul = .mul64 3 1 2 ∧ m24 = .mul121666x64 3 1) ∧
    (∃ b : FReg, val .limb64 b = 1) ∧ (∃ b : FReg, val .limb32 b = 121666) ∧
    (∃ b c d : FReg, val .limb32 d ≡ val .limb32 b + val .limb32 c [ZMOD (Config.p : Int)]) :=
  ⟨⟨_, _, rfl, rfl⟩, ⟨img [1], by decide +kernel⟩, ⟨img [121666], by decide +kernel⟩,
    ⟨img [2], img [3], img [5], by unfold Int.ModEq; decide +kernel⟩⟩

theorem witness_InvTimesOperandIsOne :
    (∃ inv mul : Instr, inv = .inv32 1 0 ∧ mul = .mul32 1 0 2) ∧ ¬ (Config.p : Int) ∣ val .limb32 (img [9]) ∧
    (Config.p : Int) ∣ val .limb32 (img [0x03FFFFED, 0x01FFFFFF, 0x03FFFFFF, 0x01FFFFFF, 0x03FFFFFF, 0x01FFFFFF,
      0x03FFFFFF, 0x01FFFFFF, 0x03FFFFFF, 0x01FFFFFF]) := ⟨⟨_, _, rfl, rfl⟩, by decide +kernel, by decide +kernel⟩

theorem witness_ColumnSumsGiveTheProduct :
    adm32 (img (List.replicate 10 0x07FFFFFF)) = true ∧ adm32 (img (List.replicate 10 0xF8000001)) = true ∧
    adm64 (img [0xFFFFFFFF, 0x003FFFFF, 0xFFFFFFFF, 0x003FFFFF, 0xFFFFFFFF, 0x003FFFFF, 0xFFFFFFFF, 0x003FFFFF,
      0xFFFFFFFF, 0x003FFFFF]) = true := by decide +kernel

/-- A register changes at a completion, at a host write, and at a reset. -/
theorem witness_RegistersChangeOnlyAsAllowed :
    ∀ s ∈ [busyWith [.complete], idle [writeEvent (fwOffset 1 9) 5#32],
      loaded 1 (img [9]) zeroBytes [writeEvent 0x004#10 1#32]], ∃ t, step s = .next t ∧ t.getF 1 ≠ s.getF 1 := by
  simp only [List.mem_cons, List.not_mem_nil, or_false]
  rintro s (rfl | rfl | rfl) <;> exact ⟨_, rfl, by decide +kernel⟩

/-- BYTES changes at a completion, at a host write, and at a reset. -/
theorem witness_BytesChangeOnlyAsAllowed :
    ∀ s ∈ [flying (.tobytes32 0) (img [9]) zeroReg zeroBytes, idle [writeEvent (bwOffset 7) 5#32],
      loaded 1 zeroReg (str [1]) [writeEvent 0x004#10 1#32]], ∃ t, step s = .next t ∧ t.bytes ≠ s.bytes := by
  simp only [List.mem_cons, List.not_mem_nil, or_false]
  rintro s (rfl | rfl | rfl) <;> exact ⟨_, rfl, by decide +kernel⟩

theorem witness_LastCmdIsLastAcceptedWord :
    (∀ s ∈ [idle [cmdWriteEvent 0x00000102#32], busyWith [writeEvent 0x004#10 1#32]],
      ∃ t, step s = .next t ∧ t.lastCmd ≠ s.lastCmd) ∧
    (∃ (s : State) (c : Word) (i : Instr), s.rst = false ∧ s.inflight = none ∧
      s.schedule = .access (.write 0x00C#10 .word c) :: [] ∧ decode c = .ok i ∧ operandsAdmissible i s = true ∧
      c ≠ s.lastCmd) := by
  refine ⟨?_, loaded 7 (img [9]) zeroBytes [cmdWriteEvent 0x00077701#32], 0x00077701#32, .mul32 7 7 7, rfl, rfl, rfl,
    rfl, by decide +kernel, by decide⟩
  simp only [List.mem_cons, List.not_mem_nil, or_false]
  rintro s (rfl | rfl) <;> exact ⟨_, rfl, by decide +kernel⟩

theorem witness_DoneRisesOnlyByCompletion :
    (∃ s t : State, step s = .next t ∧ s.done = false ∧ t.done = true) ∧
    (∃ s t : State, step s = .next t ∧ s.done = true ∧ t.done = false) :=
  ⟨⟨busyWith [], _, rfl, rfl, rfl⟩, { idle clrst with done := true }, _, rfl, rfl, rfl⟩

theorem witness_InFlightStaysAsCaptured :
    (∃ (s t : State) (r : InFlight), step s = .next t ∧ s.inflight = some r ∧ t.inflight = some r) ∧
    (∃ (s t : State) (r : InFlight), step s = .next t ∧ s.inflight = some r ∧ t.inflight = none) ∧
    (∃ (s t : State) (r : InFlight), step s = .next t ∧ s.inflight = none ∧ t.inflight = some r) :=
  ⟨⟨busyWith [pollEvent], _, _, rfl, rfl, rfl⟩, ⟨busyWith [.complete], _, _, rfl, rfl, rfl⟩,
    ⟨loaded 0 (img [9]) zeroBytes [cmdWriteEvent 0x00000005#32], _, _, rfl, rfl, rfl⟩⟩

/-- Two blocks that differ in a register and in a captured operand, at an issue and at a completion. -/
theorem witness_ControlIgnoresOperandValues :
    (∃ (s₁ s₂ t₁ : State) (i : Instr), s₁.control = s₂.control ∧ decode 0x00000102#32 = .ok i ∧
      s₁.schedule = .access (.write 0x00C#10 .word 0x00000102#32) :: [] ∧
      operandsAdmissible i s₁ = operandsAdmissible i s₂ ∧ step s₁ = .next t₁ ∧ s₁.f ≠ s₂.f) ∧
    (∃ s₁ s₂ t₁ : State, s₁.control = s₂.control ∧ s₁.schedule = .complete :: [] ∧ step s₁ = .next t₁ ∧
      s₁.inflight ≠ s₂.inflight) :=
  ⟨⟨loaded 0 (img [9]) zeroBytes [cmdWriteEvent 0x00000102#32], idle [cmdWriteEvent 0x00000102#32], _, .sqr32 1 0, rfl,
      rfl, rfl, by decide +kernel, (step_cmd_legal (i := .sqr32 1 0) rfl rfl rfl).trans (exec_host rfl), by decide +kernel⟩,
    ⟨busyWith [.complete], flying (.sqr32 1 0) zeroReg zeroReg zeroBytes, _, rfl, rfl, rfl, by decide +kernel⟩⟩

theorem witness_AcceptedCommandCompletes : ∃ (s : State) (r : InFlight), s.rst = false ∧ s.inflight = some r ∧
    (∀ e ∈ s.schedule, e.keepsCommand = true) ∧ s.schedule.length = 3 :=
  ⟨busyWith [pollEvent, writeEvent 0x004#10 2#32, writeEvent 0x100#10 5#32], _, rfl, rfl, by decide, rfl⟩

theorem witness_WaitSeesTheCompletion : ∃ (s : State) (r : InFlight), s.rst = false ∧ s.inflight = some r ∧
    s.schedule = waitEvents 2 ++ [] := ⟨busyWith (waitEvents 2), _, rfl, rfl, rfl⟩

/-- A command of every opcode, on a block whose registers and BYTES are admissible operands for each. -/
theorem witness_EveryCommandRunsEndToEnd :
    ∀ i ∈ [Instr.nop, .mul32 1 1 1, .mul64 1 1 1, .sqr32 1 1, .sqr64 1 1, .mul121666x32 1 1, .mul121666x64 1 1,
      .inv32 1 1, .inv64 1 1, .frombytes32 1, .frombytes64 1, .tobytes32 1, .tobytes64 1, .wipe],
      ∃ s : State, s.rst = false ∧ s.inflight = none ∧ operandsAdmissible i s = true ∧
        s.schedule = runEvents i 2 ++ [] := by
  intro i hi
  refine ⟨loaded 1 (img [9]) (str [9]) (runEvents i 2), rfl, rfl, ?_, (List.append_nil _).symm⟩
  revert i
  decide +kernel

end Sys2Proof.Tests
end

section
/-! SUPPORT. Decoding read backwards: the word a command was decoded from is the command's own word. -/

namespace Sys2Proof

/-- A word whose reserved bits are 0 and whose other fields are those of a command is that command's word (R101). -/
theorem encode_eq_of_fields {c : Word} {i : Instr}
    (hr : ¬(rsv0Field c ≠ 0#3 ∨ rsv1Field c ≠ 0#1 ∨ rsv2Field c ≠ 0#1 ∨ rsv3Field c ≠ 0#13))
    (ho : (opcField c).toNat = i.op.code.toNat) (hp : pField c = i.path.bit) (hd : rdField c = fieldOfReg i.rd)
    (h1 : rs1Field c = fieldOfReg i.rs1) (h2 : rs2Field c = fieldOfReg i.rs2) : encode i = c := by
  push Not at hr
  obtain ⟨r0, r1, r2, r3⟩ := hr
  rw [word_eq_fields c, r0, r1, r2, r3, BitVec.eq_of_toNat_eq ho, hp, hd, h1, h2, encode]

/-- P chooses between the two paths of an opcode; the word follows if it does so for each (R102). -/
theorem encode_of_pField {c : Word} {wide narrow : Instr} (hw : pField c = 1#1 → encode wide = c)
    (hn : pField c = 0#1 → encode narrow = c) : encode (if (pField c == 1#1) = true then wide else narrow) = c := by
  rcases (pField c).eq_zero_or_eq_one with h | h
  · simp [h, hn]
  · simp [h, hw]

/-- A guarded answer that is no error passed its guard. -/
theorem ok_of_guard {α ε : Type} {P : Prop} [Decidable P] {x y : α} {e : ε}
    (h : (if P then Except.ok x else .error e) = .ok y) : P ∧ x = y := by
  split at h <;> cases h
  exact ⟨‹P›, rfl⟩

/-- No bit of a decodable word is dropped: a case per opcode, whose guard gives the must-be-zero fields (R105). -/
theorem encode_of_decode {c : Word} {i : Instr} (h : decode c = .ok i) : encode i = c := by
  simp only [decode] at h
  split at h
  · cases h
  rename_i hr
  split at h
  case h_1 ho | h_8 ho => -- NOP, WIPE
    obtain ⟨⟨hp, hd, h1, h2⟩, rfl⟩ := ok_of_guard h
    exact encode_eq_of_fields hr ho hp hd h1 h2
  case h_2 ho => -- MUL
    cases h
    exact encode_of_pField (encode_eq_of_fields hr ho · rfl rfl rfl) (encode_eq_of_fields hr ho · rfl rfl rfl)
  case h_3 ho | h_4 ho | h_5 ho => -- SQR, MUL121666, INV
    obtain ⟨h2, rfl⟩ := ok_of_guard h
    exact encode_of_pField (encode_eq_of_fields hr ho · rfl rfl h2) (encode_eq_of_fields hr ho · rfl rfl h2)
  case h_6 ho => -- FROMBYTES
    obtain ⟨⟨h1, h2⟩, rfl⟩ := ok_of_guard h
    exact encode_of_pField (encode_eq_of_fields hr ho · rfl h1 h2) (encode_eq_of_fields hr ho · rfl h1 h2)
  case h_7 ho => -- TOBYTES
    obtain ⟨⟨hd, h2⟩, rfl⟩ := ok_of_guard h
    exact encode_of_pField (encode_eq_of_fields hr ho · hd rfl h2) (encode_eq_of_fields hr ho · hd rfl h2)
  case h_9 => cases h

/-- Laying a table word in its byte lanes and decoding them is decoding the word (R74, R100). -/
theorem decode_of_decodeTableWord {w : Nat} {i : Instr} (h : decodeTableWord 32 w = some i) :
    decode (BitVec.ofNat 32 (w % 2 ^ 32)) = .ok i := by
  simp only [decodeTableWord, if_pos (Nat.mod_lt w (by norm_num : 2 ^ 32 > 0)), decodeBytes,
    Machine.wordOfLanes_laneOf] at h
  cases hd : decode (BitVec.ofNat 32 (w % 2 ^ 32)) with
  | ok j => rw [hd] at h; exact congrArg _ (Option.some.inj h)
  | error e => rw [hd] at h; cases h

end Sys2Proof
end

section
/-! SUPPORT. What the two resets leave, the bits CTRL and STATUS read as, and the step that accepts a command. -/

namespace Sys2Proof.Machine

/-- The architectural state of the reset state is cleared, whatever the model's own fields hold (R46). -/
theorem reset_isCleared (rst : Bool) (turn : Agent) (resp : BusResp) (rest : List Event) :
    State.isCleared { State.reset with rst := rst, turn := turn, resp := resp, schedule := rest } := by
  refine ⟨fun n k => ?_, fun k => Vector.getElem_replicate _, rfl, rfl, rfl, rfl, rfl, rfl⟩
  change (State.reset.getF n)[k] = 0#32
  rw [getF_reset, zeroReg, Fin.getElem_fin, Vector.getElem_replicate]

theorem State.isCleared.busy {s : State} (h : s.isCleared) : s.busy = false := by
  obtain ⟨-, -, -, -, -, -, -, hi⟩ := h
  exact (not_busy_iff s).2 hi

theorem State.isCleared.irq {s : State} (h : s.isCleared) : s.irq = false := by
  obtain ⟨-, -, hen, -⟩ := h
  rw [State.irq, hen, Bool.false_and]

/-- A CTRL write with bit 0 = 1 leaves the reset state (R39, R241). -/
theorem step_softReset {s : State} {v : Word} {rest : List Event} (hr : s.rst = false) (hv : v.getLsbD 0 = true)
    (hs : s.schedule = .access (.write 0x004#10 .word v) :: rest) :
    step s = .next { State.reset with rst := false, turn := .host, resp := .ack, schedule := rest } := by
  rw [step_write hr hs (by decide) (by decide), locate_ctrl, memWrite_ctrl, writeCtrl, if_pos hv, softReset,
    answered_rst, hr]
  rfl

/-- The release of `rst` leaves the reset state (R240). -/
theorem step_release {s : State} {rest : List Event} (hr : s.rst = true) (hs : s.schedule = .rst false :: rest) :
    step s = .next { State.reset with rst := false, turn := s.turn, resp := s.resp, schedule := rest } := by
  simp only [step, nextAction, hs, resetInput, hr, Bool.false_eq_true, if_false, if_true]
  rfl

/-- The bits of CTRL (R39). -/
theorem ctrlWord_getLsbD (s : State) (i : Nat) : (ctrlWord s).getLsbD i = (decide (i = 1) && s.irqEn) := by
  simp only [ctrlWord, BitVec.getLsbD_append]
  match i with
  | 0 | 1 | n + 2 => simp

theorem statusWord_done (s : State) : (statusWord s).getLsbD 1 = s.done := by
  simp only [statusWord, BitVec.getLsbD_append]
  simp

theorem statusWord_err (s : State) : (statusWord s).getLsbD 2 = s.err := by
  simp only [statusWord, BitVec.getLsbD_append]
  simp

/-- Above its three flags STATUS has five 0 bits, then ERRCODE, then 0 (R40). -/
theorem statusWord_getLsbD_add_three (s : State) (n : Nat) :
    (statusWord s).getLsbD (n + 3) = (decide (5 ≤ n) && s.errCode.getLsbD (n - 5)) := by
  simp only [statusWord, BitVec.getLsbD_append]
  rcases lt_or_ge n 5 with h | h
  · simp [h]
  · rcases lt_or_ge (n - 5) 4 with h' | h' <;> simp [h, h']

theorem statusWord_errCode (s : State) (i : Nat) : (statusWord s).getLsbD (8 + i) = s.errCode.getLsbD i := by
  rw [show 8 + i = i + 5 + 3 by omega, statusWord_getLsbD_add_three]
  simp

/-- The bits of STATUS between ERR and ERRCODE and past ERRCODE read 0 (R40). -/
theorem statusWord_unused (s : State) {i : Nat} (h : 3 ≤ i ∧ i ≤ 7 ∨ 12 ≤ i) : (statusWord s).getLsbD i = false := by
  rcases h with ⟨h3, h7⟩ | h
  · obtain ⟨n, rfl⟩ := Nat.exists_eq_add_of_le' h3
    rw [statusWord_getLsbD_add_three, decide_eq_false (by omega), Bool.false_and]
  · obtain ⟨n, rfl⟩ := Nat.exists_eq_add_of_le h
    rw [show 12 + n = 8 + (4 + n) by omega, statusWord_errCode, BitVec.getLsbD_of_ge _ _ (by omega)]

/-- An admissible command written to CMD of an idle block is accepted with the operands it reads (R110). -/
theorem step_accept {s : State} {c : Word} {i : Instr} {rest : List Event} (hr : s.rst = false)
    (hi : s.inflight = none) (hs : s.schedule = cmdWriteEvent c :: rest) (hd : decode c = .ok i)
    (ha : operandsAdmissible i s = true) : step s = .next (accept i (operandsOf i s) (s.answered rest .ack)) := by
  have hc : captureOf i (s.answered rest .ack) = .ok (operandsOf i s) := (captureOf_answered ..).trans (captureOf_eq ha)
  rw [step_cmd_legal hr hs hd, exec_host rfl, issue_ok ((not_busy_iff (s.answered rest .ack)).2 hi) hc]

end Sys2Proof.Machine
end

section
/-! SUPPORT. The invariant of the block, carried over each kind of change and so over every effect of a step. -/

namespace Sys2Proof.Machine

/-- Every error has a code from 1 to 4 (R200). -/
theorem Err.code_range (e : Err) : e.code ≠ 0#4 ∧ e.code.toNat ≤ 4 := by
  cases e <;> decide

/-- The invariant looks at ERR, ERRCODE, LASTCMD, INFLIGHT and `rst` alone. -/
theorem State.Inv.congr {s t : State} (h : s.Inv) (he : t.err = s.err) (hc : t.errCode = s.errCode)
    (hl : t.lastCmd = s.lastCmd) (hi : t.inflight = s.inflight) (hr : t.rst = s.rst) : t.Inv where
  errCode_zero_iff := by rw [he, hc]; exact h.errCode_zero_iff
  errCode_le := by rw [hc]; exact h.errCode_le
  lastCmd_legal := by rw [hl]; exact h.lastCmd_legal
  inflight_ok := by rw [hi, hl]; exact h.inflight_ok
  reset_idle := by rw [hi, hr]; exact h.reset_idle

/-- With no command in flight the level of `rst` is free (R240). -/
theorem State.Inv.of_idle {s t : State} (h : s.Inv) (he : t.err = s.err) (hc : t.errCode = s.errCode)
    (hl : t.lastCmd = s.lastCmd) (hi : t.inflight = none) : t.Inv where
  errCode_zero_iff := by rw [he, hc]; exact h.errCode_zero_iff
  errCode_le := by rw [hc]; exact h.errCode_le
  lastCmd_legal := by rw [hl]; exact h.lastCmd_legal
  inflight_ok r hr := by rw [hi] at hr; cases hr
  reset_idle _ := hi

theorem reset_inv : State.reset.Inv where
  errCode_zero_iff := ⟨fun _ => rfl, fun _ => rfl⟩
  errCode_le := by decide
  lastCmd_legal := legalWord_encode .nop
  inflight_ok r hr := by cases hr
  reset_idle _ := rfl

/-- A report with ERR = 0 sets ERR and a code that is not 0; with ERR = 1 the code there stays (R202). -/
theorem raiseErr_inv {s : State} (h : s.Inv) (e : Err) : (raiseErr e s).Inv where
  errCode_zero_iff := by
    have h0 := h.errCode_zero_iff
    cases hs : s.err <;> simp_all [e.code_range.1]
  errCode_le := by
    rw [raiseErr_errCode]
    split
    · exact h.errCode_le
    · exact e.code_range.2
  lastCmd_legal := by rw [raiseErr_lastCmd]; exact h.lastCmd_legal
  inflight_ok := by rw [raiseErr_inflight, raiseErr_lastCmd]; exact h.inflight_ok
  reset_idle := by rw [raiseErr_inflight, raiseErr_rst]; exact h.reset_idle

/-- A STATUS write clears ERR and ERRCODE together or not at all (R40). -/
theorem writeStatus_inv {s : State} (h : s.Inv) (v : Word) : (writeStatus v s).Inv where
  errCode_zero_iff := by
    rw [writeStatus_errCode, writeStatus_err]
    cases v.getLsbD 2
    · simpa using h.errCode_zero_iff
    · simp
  errCode_le := by
    rw [writeStatus_errCode]
    split
    · decide
    · exact h.errCode_le
  lastCmd_legal := h.lastCmd_legal
  inflight_ok := h.inflight_ok
  reset_idle := h.reset_idle

/-- An accepted command's record fits it, and LASTCMD is its word (R41, R110). -/
theorem accept_inv {s : State} (h : s.Inv) {i : Instr} {ops : Captured} (hw : InFlight.wellFormed ⟨i, ops⟩ = true)
    (hr : s.rst = false) : (accept i ops s).Inv where
  errCode_zero_iff := h.errCode_zero_iff
  errCode_le := h.errCode_le
  lastCmd_legal := legalWord_encode i
  inflight_ok r hi := by
    obtain rfl := Option.some.inj hi
    exact ⟨hw, rfl⟩
  reset_idle ht := absurd (hr.symm.trans ht) Bool.false_ne_true

/-- Whatever a step did, the invariant stays. -/
theorem Effect.inv {s t : State} (h : Effect s t) (hi : s.Inv) : t.Inv := by
  have ans (rest : List Event) (r : BusResp) : (s.answered rest r).Inv := hi.congr rfl rfl rfl rfl rfl
  cases h with
  | quiet q ht => exact ht ▸ hi.congr rfl rfl rfl rfl rfl
  | assertReset rest hs ht => exact ht ▸ hi.of_idle rfl rfl rfl rfl
  | reset hn turn resp rest e hs ht => exact ht ▸ reset_inv.congr rfl rfl rfl rfl rfl
  | answered hr a rest r hs ht => exact ht ▸ ans rest r
  | raised hr e off v rest hs ht => exact ht ▸ raiseErr_inv (ans rest .ack) e
  | ctrl hr v rest hs h0 ht => exact ht ▸ hi.congr rfl rfl rfl rfl rfl
  | status hr v rest hs ht => exact ht ▸ writeStatus_inv (ans rest .ack) v
  | bytes hr hn m v rest b hs hb ht => exact ht ▸ hi.congr rfl rfl rfl rfl rfl
  | reg hr hn n k v rest hs ht => exact ht ▸ (ans rest .ack).congr rfl rfl rfl rfl rfl
  | accepted hr hn i c rest ops hs hd ha ho hw ht => exact ht ▸ accept_inv (ans rest .ack) hw hr
  | completed hr hn r q f b hf hb hr' ht => exact ht ▸ hi.of_idle rfl rfl rfl rfl

end Sys2Proof.Machine
end

section
/-! SUPPORT. Which effects of a step can change BYTES, LASTCMD, DONE and the record in flight. The cases that leave the
field alone stand together at the end of each proof. -/

namespace Sys2Proof.Machine

/-- BYTES changes by a completion that writes it, an idle host write, or a reset (R37, R78, R111). -/
theorem Effect.bytes_changed {s t : State} (h : Effect s t) (hne : t.bytes ≠ s.bytes) :
    (s.nextIsEngine = true ∧ ∃ r, s.inflight = some r ∧ t.inflight = none ∧ (r.cmd = .wipe ∨ r.cmd.op = .tobytes)) ∨
      (s.inflight = none ∧ ∃ m v rest, s.schedule = .access (.write (bwOffset m) .word v) :: rest) ∨
      s.nextIsReset = true := by
  cases h with
  | completed hr hn r q f b hi hf hb ht =>
    refine .inl ⟨hn, r, hi, congrArg State.inflight ht, ?_⟩
    by_contra hc
    push Not at hc
    obtain ⟨hw, hto⟩ := hc
    exact hne (by rw [ht, hb, performOf_bytes hto fun h => hw (op_eq_wipe h)])
  | bytes hr hi m v rest b hs => exact .inr (.inl ⟨hi, m, v, rest, hs⟩)
  | reset hn => exact .inr (.inr hn)
  | raised _ e _ _ rest _ ht => exact absurd ((congrArg State.bytes ht).trans (raiseErr_bytes ..)) hne
  | quiet _ ht | assertReset _ _ ht | answered _ _ _ _ _ ht | ctrl _ _ _ _ _ ht | status _ _ _ _ ht
  | reg _ _ _ _ _ _ _ ht | accepted _ _ _ _ _ _ _ _ _ _ _ ht => exact absurd (congrArg State.bytes ht) hne

/-- LASTCMD changes by the acceptance of a command or a reset (R41, R110). -/
theorem Effect.lastCmd_changed {s t : State} (h : Effect s t) (hne : t.lastCmd ≠ s.lastCmd) :
    (∃ c i rest, s.schedule = cmdWriteEvent c :: rest ∧ decode c = .ok i ∧ s.inflight = none ∧
      t.inflight.map (·.cmd) = some i ∧ t.lastCmd = c) ∨ s.nextIsReset = true := by
  cases h with
  | accepted hr hi i c rest ops hs hd ha ho hw ht =>
    subst ht
    exact .inl ⟨c, i, rest, hs, hd, hi, rfl, encode_of_decode hd⟩
  | reset hn => exact .inr hn
  | raised _ e _ _ rest _ ht => exact absurd ((congrArg State.lastCmd ht).trans (raiseErr_lastCmd ..)) hne
  | quiet _ ht | assertReset _ _ ht | answered _ _ _ _ _ ht | ctrl _ _ _ _ _ ht | status _ _ _ _ ht
  | bytes _ _ _ _ _ _ _ _ ht | reg _ _ _ _ _ _ _ ht | completed _ _ _ _ _ _ _ _ _ ht =>
    exact absurd (congrArg State.lastCmd ht) hne

/-- DONE changes to 1 by a completion, to 0 by a STATUS write with bit 1 = 1 or a reset (R40, R111). -/
theorem Effect.done_changed {s t : State} (h : Effect s t) (hne : t.done ≠ s.done) :
    (t.done = true ∧ s.nextIsEngine = true ∧ (∃ r, s.inflight = some r) ∧ t.inflight = none) ∨
      (t.done = false ∧ ((∃ v rest, s.schedule = .access (.write 0x008#10 .word v) :: rest ∧ v.getLsbD 1 = true) ∨
        s.nextIsReset = true)) := by
  cases h with
  | completed hr hn r q f b hi hf hb ht => subst ht; exact .inl ⟨rfl, hn, ⟨r, hi⟩, rfl⟩
  | reset hn turn resp rest e hs ht => subst ht; exact .inr ⟨rfl, .inr hn⟩
  | status hr v rest hs ht =>
    subst ht
    cases hv : v.getLsbD 1 with
    | true => exact .inr ⟨by rw [writeStatus_done, hv, Bool.not_true, Bool.and_false], .inl ⟨v, rest, hs, hv⟩⟩
    | false => exact absurd (by rw [writeStatus_done, hv, Bool.not_false, Bool.and_true, answered_done]) hne
  | raised _ e _ _ rest _ ht => exact absurd ((congrArg State.done ht).trans (raiseErr_done ..)) hne
  | quiet _ ht | assertReset _ _ ht | answered _ _ _ _ _ ht | ctrl _ _ _ _ _ ht | bytes _ _ _ _ _ _ _ _ ht
  | reg _ _ _ _ _ _ _ ht | accepted _ _ _ _ _ _ _ _ _ _ _ ht => exact absurd (congrArg State.done ht) hne

/-- A record in flight stays, or leaves by its completion, a reset or the assertion of `rst` (R111, R240, R241). -/
theorem Effect.inflight_kept {s t : State} {r : InFlight} (h : Effect s t) (hr : s.inflight = some r) :
    t.inflight = some r ∨ t.inflight = none ∧
      (s.nextIsEngine = true ∧ t.done = true ∨ s.nextIsReset = true ∨ ∃ rest, s.schedule = .rst true :: rest) := by
  cases h with
  | completed _ hn _ _ _ _ _ _ _ ht => subst ht; exact .inr ⟨rfl, .inl ⟨hn, rfl⟩⟩
  | reset hn _ _ _ _ _ ht => subst ht; exact .inr ⟨rfl, .inr (.inl hn)⟩
  | assertReset rest hs ht => subst ht; exact .inr ⟨rfl, .inr (.inr ⟨rest, hs⟩)⟩
  | accepted _ hi => cases hr.symm.trans hi
  | raised _ e _ _ rest _ ht => subst ht; exact .inl ((raiseErr_inflight ..).trans hr)
  | quiet _ ht | answered _ _ _ _ _ ht | ctrl _ _ _ _ _ ht | status _ _ _ _ ht | bytes _ _ _ _ _ _ _ _ ht
  | reg _ _ _ _ _ _ _ ht => exact .inl ((congrArg State.inflight ht).trans hr)

/-- A record appears only by the acceptance of an admissible command, which touches no register and no byte (R110). -/
theorem Effect.inflight_new {s t : State} {r : InFlight} (h : Effect s t) (hn : s.inflight = none)
    (hr : t.inflight = some r) :
    operandsAdmissible r.cmd s = true ∧ t.lastCmd = encode r.cmd ∧ t.f = s.f ∧ t.bytes = s.bytes := by
  have hne : t.inflight ≠ s.inflight := by rw [hr, hn]; exact Option.some_ne_none r
  cases h with
  | accepted _ _ i c rest ops _ _ ha _ _ ht =>
    subst ht
    obtain rfl := Option.some.inj hr
    exact ⟨ha, rfl, rfl, rfl⟩
  | completed _ _ _ _ _ _ _ _ _ ht | reset _ _ _ _ _ _ ht | assertReset _ _ ht => subst ht; cases hr
  | raised _ e _ _ rest _ ht => exact absurd ((congrArg State.inflight ht).trans (raiseErr_inflight ..)) hne
  | quiet _ ht | answered _ _ _ _ _ ht | ctrl _ _ _ _ _ ht | status _ _ _ _ ht | bytes _ _ _ _ _ _ _ _ ht
  | reg _ _ _ _ _ _ _ ht => exact absurd (congrArg State.inflight ht) hne

end Sys2Proof.Machine
end

section
/-! The statements about the block's state: reset, invariant, ID, CTRL and STATUS, and what may change each field. -/

namespace Sys2Proof.Machine

/-- Settles O5, by what each effect of a step does to the fields the invariant speaks of. -/
theorem stepKeepsInvariant : Obligations.StepKeepsInvariant :=
  fun _ _ hi h => (step_effect h).inv hi

/-- Settles O8, by the bits of the word STATUS reads as. -/
theorem statusReadLayout : Obligations.StatusReadLayout := fun s _ hr hs =>
  ⟨statusWord s, step_read hr hs (by decide), statusWord_busy s, statusWord_done s, statusWord_err s,
    fun i _ => statusWord_errCode s i, fun _ hi => statusWord_unused s hi⟩

/-- Settles O51, by the effects that can change BYTES. -/
theorem bytesChangeOnlyAsAllowed : Obligations.BytesChangeOnlyAsAllowed :=
  fun _ _ h hne => (step_effect h).bytes_changed hne

/-- Settles O52: only acceptance and reset change LASTCMD, and acceptance leaves the word the command was decoded
from. -/
theorem lastCmdIsLastAcceptedWord : Obligations.LastCmdIsLastAcceptedWord :=
  ⟨fun _ _ h hne => (step_effect h).lastCmd_changed hne,
    fun _ _ _ _ hr hi hs hd ha => ⟨_, step_accept hr hi hs hd ha, rfl, encode_of_decode hd⟩⟩

/-- Settles O53, by the effects that can change DONE and the value each leaves. -/
theorem doneRisesOnlyByCompletion : Obligations.DoneRisesOnlyByCompletion := by
  intro s t h
  constructor <;> intro hs ht <;>
    rcases (step_effect h).done_changed (by simp [hs, ht]) with ⟨hd, hc⟩ | ⟨hd, hc⟩
  · exact hc
  · cases ht.symm.trans hd
  · cases ht.symm.trans hd
  · exact hc

/-- Settles O54, by the effects that keep, end and create a record. -/
theorem inFlightStaysAsCaptured : Obligations.InFlightStaysAsCaptured := fun _ _ h =>
  ⟨fun _ => (step_effect h).inflight_kept, fun _ => (step_effect h).inflight_new⟩

/-- Settles O1: both resets leave the reset state, which is cleared. -/
theorem resetStateIsAllZero : Obligations.ResetStateIsAllZero := by
  refine ⟨?_, fun s v rest hr hv hs => ⟨_, step_softReset hr hv hs, ?_⟩,
    fun s rest hr hs => ⟨_, step_release hr hs, ?_⟩⟩
  · have h := reset_isCleared false .host .none []
    exact ⟨h, h.busy, h.irq⟩
  · have h := reset_isCleared false .host .ack rest
    exact ⟨h, h.busy, h.irq⟩
  · have h := reset_isCleared false s.turn s.resp rest
    exact ⟨h, h.busy, h.irq⟩

/-- Settles O4, clause by clause at the reset values. -/
theorem resetMeetsInvariant : Obligations.ResetMeetsInvariant := reset_inv

/-- Settles O6, by the read and the write at the location of ID. -/
theorem idReadsConstantAndIgnoresWrites : Obligations.IdReadsConstantAndIgnoresWrites := by
  intro s rest hr
  constructor
  · intro hs
    rw [step_read hr hs (by decide), memRead_id]
  · intro v hs
    rw [step_write hr hs (by decide) (by decide), locate_id, memWrite_id]

/-- Settles O7, by the bits of CTRL and the two cases of a write to it. -/
theorem ctrlReadsAndWritesIrqEn : Obligations.CtrlReadsAndWritesIrqEn := by
  intro s rest hr
  refine ⟨fun hs => ⟨ctrlWord s, step_read hr hs (by decide), ?_, fun i _ hi => ?_⟩, fun v hv hs => ?_,
    fun v hv hs => ⟨_, step_softReset hr hv hs, reset_isCleared .., rfl⟩, rfl, fun h => ?_, fun h => ?_⟩
  · rw [ctrlWord_getLsbD, decide_eq_true rfl, Bool.true_and]
  · rw [ctrlWord_getLsbD, decide_eq_false hi, Bool.false_and]
  · rw [step_write hr hs (by decide) (by decide), locate_ctrl, memWrite_ctrl, writeCtrl, hv]
    rfl
  · rw [State.irq, h, Bool.false_and]
  · rw [State.irq, h, Bool.true_and]

/-- Settles O9: each of the two bits clears its flags or leaves them. -/
theorem statusWriteOneClears : Obligations.StatusWriteOneClears := by
  intro s v rest hr hs
  rw [step_write hr hs (by decide) (by decide), locate_status, memWrite_status, writeStatus]
  cases v.getLsbD 1 <;> cases v.getLsbD 2 <;> simp

/-- Settles O28: the CMD write of a word that decodes to a command, as the next event or placed by `withFetchWord`. -/
theorem stepRunsDecodedCommand : Obligations.StepRunsDecodedCommand :=
  ⟨fun _ _ _ _ hr hs hd => step_cmd_legal hr hs hd,
    fun s w _ hw => step_cmd_legal (s := s.withFetchWord 32 w) rfl rfl (decode_of_decodeTableWord hw)⟩

end Sys2Proof.Machine
end

section
/-! SUPPORT. Where the reserved offsets of the map, the accesses the bus refuses and the addresses of the window stand,
and what one access to an operand word does (R70 to R78, R85). -/

namespace Sys2Proof.Machine

/-- The map has holes between the control words and BW, up to F, after the ten words of each register, and past F7
(R71). -/
theorem locate_reserved {off : Offset}
    (h : 0x010 ≤ off.toNat ∧ off.toNat ≤ 0x01C ∨ 0x040 ≤ off.toNat ∧ off.toNat ≤ 0x0FC ∨
      (∃ n, n ≤ 7 ∧ 0x100 + 0x40 * n + 0x28 ≤ off.toNat ∧ off.toNat ≤ 0x100 + 0x40 * n + 0x3C) ∨
      0x300 ≤ off.toNat ∧ off.toNat ≤ 0x3FC) : locate off = .reserved := by
  obtain ⟨hid, hctrl, hstatus, hcmd, hbw, hfw⟩ : off.toNat ≠ 0x000 ∧ off.toNat ≠ 0x004 ∧ off.toNat ≠ 0x008 ∧
      off.toNat ≠ 0x00C ∧ ¬(0x020 ≤ off.toNat ∧ off.toNat < 0x040) ∧
      (0x100 ≤ off.toNat ∧ off.toNat < 0x300 → ¬(off.toNat - 0x100) % 0x40 < 0x28) := by
    rcases h with h | h | ⟨n, -, h⟩ | h <;> omega
  simp only [locate, if_neg hid, if_neg hctrl, if_neg hstatus, if_neg hcmd, if_neg hbw]
  by_cases hf : 0x100 ≤ off.toNat ∧ off.toNat < 0x300
  · rw [if_pos hf, if_neg (hfw hf)]
  · rw [if_neg hf]

theorem memRead_reserved {off : Offset} (h : locate off = .reserved) (s : State) : memRead off s = 0#32 := by
  simp only [memRead, h]

/-- An access that breaks either condition of R73 is not legal. -/
theorem wellFormed_eq_false {a : Access} (h : a.width ≠ .word ∨ a.off.toNat % 4 ≠ 0) : a.wellFormed = false := by
  rw [Access.wellFormed, Bool.and_eq_false_iff, Access.wordWide, Access.aligned, beq_eq_false_iff_ne,
    beq_eq_false_iff_ne]
  exact h

theorem windowOffset_mmBase_add (off : Offset) : windowOffset (Config.mmBase + off.toNat) = some off := by
  have h : off.toNat < Config.window := off.isLt
  rw [windowOffset, if_pos ⟨Nat.le_add_right .., Nat.add_lt_add_left h _⟩, Nat.add_sub_cancel_left,
    BitVec.ofNat_toNat, BitVec.setWidth_eq]

theorem windowOffset_outside {a : Nat} (h : a < Config.mmBase ∨ Config.mmBase + Config.window ≤ a) :
    windowOffset a = none :=
  if_neg (by omega)

theorem locate_bwOffset_ne_cmd (m : Fin 8) : locate (bwOffset m) ≠ .cmd := by
  rw [locate_bwOffset]; exact Loc.noConfusion

theorem locate_fwOffset_ne_cmd (n : RegIdx) (k : Fin 10) : locate (fwOffset n k) ≠ .cmd := by
  rw [locate_fwOffset]; exact Loc.noConfusion

/-! The step of a read or a write of an operand word. -/

theorem step_read_bw {s : State} {m : Fin 8} {rest : List Event} (hr : s.rst = false)
    (hs : s.schedule = .access (.read (bwOffset m) .word) :: rest) :
    step s = .next (s.answered rest (.data (bytesWord s.bytes m))) := by
  rw [step_read hr hs (bwOffset_aligned m), memRead_bwOffset]

theorem step_read_fw {s : State} {n : RegIdx} {k : Fin 10} {rest : List Event} (hr : s.rst = false)
    (hs : s.schedule = .access (.read (fwOffset n k) .word) :: rest) :
    step s = .next (s.answered rest (.data (s.getF n)[k])) := by
  rw [step_read hr hs (fwOffset_aligned n k), memRead_fwOffset]

theorem step_write_bw {s : State} {m : Fin 8} {v : Word} {rest : List Event} (hr : s.rst = false)
    (hs : s.schedule = .access (.write (bwOffset m) .word v) :: rest) :
    step s = .next (writeOperand (fun s => s.setBytes (setBytesWord s.bytes m v)) (s.answered rest .ack)) := by
  rw [step_write hr hs (bwOffset_aligned m) (locate_bwOffset_ne_cmd m), locate_bwOffset, memWrite_bw]

theorem step_write_fw {s : State} {n : RegIdx} {k : Fin 10} {v : Word} {rest : List Event} (hr : s.rst = false)
    (hs : s.schedule = .access (.write (fwOffset n k) .word v) :: rest) :
    step s = .next (writeOperand (fun s => s.setFWord n k v) (s.answered rest .ack)) := by
  rw [step_write hr hs (fwOffset_aligned n k) (locate_fwOffset_ne_cmd n k), locate_fwOffset, memWrite_fw]

/-- A dropped operand write leaves WRITE_WHILE_BUSY and nothing else (R78). -/
theorem writeOperand_answered_busy {store : State → State} {s : State} (hi : s.inflight ≠ none) (rest : List Event) :
    writeOperand store (s.answered rest .ack) = (s.answered rest .ack).withError 4#4 := by
  rw [writeOperand_busy (s := s.answered rest .ack) hi, raiseErr_eq_withError, Err.code]

/-! The byte lanes (R37, R74). -/

theorem setBytesWord_getElem (b : ByteString) (m : Fin 8) (v : Word) (k : Fin 32) :
    (setBytesWord b m v)[k] = if k.val / 4 = m.val then laneOf v ⟨k.val % 4, by omega⟩ else b[k] := by
  rw [setBytesWord, Fin.getElem_fin, Vector.getElem_ofFn]

/-- Each lane of a word made of four bytes is its byte. -/
theorem laneOf_wordOfLanes (b0 b1 b2 b3 : Byte) (j : Fin 4) :
    laneOf (wordOfLanes b0 b1 b2 b3) j = #v[b0, b1, b2, b3][j] := by
  match j with
  | 0 => exact BitVec.extractLsb'_append_eq_right
  | 1 => exact (BitVec.extractLsb'_append_eq_of_le (by decide)).trans BitVec.extractLsb'_append_eq_right
  | 2 =>
    exact (BitVec.extractLsb'_append_eq_of_le (by decide)).trans
      ((BitVec.extractLsb'_append_eq_of_le (by decide)).trans BitVec.extractLsb'_append_eq_right)
  | 3 =>
    exact (BitVec.extractLsb'_append_eq_of_le (by decide)).trans
      ((BitVec.extractLsb'_append_eq_of_le (by decide)).trans BitVec.extractLsb'_append_eq_left)

theorem laneOf_bytesWord (b : ByteString) (m : Fin 8) (j : Fin 4) :
    laneOf (bytesWord b m) j = b[4 * m.val + j.val]'(by omega) := by
  rw [bytesWord, laneOf_wordOfLanes]
  match j with
  | 0 | 1 | 2 | 3 => rfl

/-- A step that leaves a command in flight changes no register and no byte: a completion and the resets end the record,
and the host's operand writes reach the words of an idle block alone (R78). -/
theorem Effect.operands_kept {s t : State} (h : Effect s t) (hi : t.inflight ≠ none) :
    t.f = s.f ∧ t.bytes = s.bytes := by
  cases h with
  | completed _ _ _ _ _ _ _ _ _ ht | reset _ _ _ _ _ _ ht | assertReset _ _ ht =>
    exact absurd (congrArg State.inflight ht) hi
  | bytes _ hn _ _ _ _ _ _ ht | reg _ hn _ _ _ _ _ ht => exact absurd ((congrArg State.inflight ht).trans hn) hi
  | raised _ _ _ _ _ _ ht => exact ht ▸ ⟨raiseErr_f .., raiseErr_bytes ..⟩
  | quiet _ ht | answered _ _ _ _ _ ht | ctrl _ _ _ _ _ ht | status _ _ _ _ ht
  | accepted _ _ _ _ _ _ _ _ _ _ _ ht => exact ht ▸ ⟨rfl, rfl⟩

end Sys2Proof.Machine
end

section
/-! SUPPORT. The `wait` loop: STATUS reads before the completion, the completion, and the read after it (R81, R107). -/

namespace Sys2Proof.Machine

/-- `wait` repeats exactly while the block it reads is busy (R40, R107). -/
theorem waitRepeats_statusWord (s : State) : waitRepeats (statusWord s) = s.busy := statusWord_busy s

/-- One STATUS read. -/
theorem runsTo_poll {s : State} {rest : List Event} {good : State → Prop} (hr : s.rst = false)
    (hs : s.schedule = pollEvent :: rest) (hg : good (s.answered rest (.data (statusWord s)))) : runsTo 1 s good :=
  runsTo_step (step_read hr hs (by decide)) (runsTo_zero hg)

/-- STATUS reads in front of a run leave it the state they found, but for the bus. -/
theorem runsTo_polls {s : State} {k m : Nat} {q : List Event} {good : State → Prop} (hr : s.rst = false)
    (hs : s.schedule = List.replicate k pollEvent ++ q)
    (h : ∀ r a, runsTo m { s with schedule := q, turn := a, resp := r } good) : runsTo (k + m) s good := by
  obtain ⟨r, a, hk⟩ := run_polls k s q hr hs
  obtain ⟨t, ht, hg⟩ := h r a
  exact ⟨t, (run_add Sys2Proof.core k m hk).trans ht, hg⟩

/-- The completion of the command in flight, as `exec` gives it (R111). -/
theorem exec_inflight {s : State} {r : InFlight} (hi : s.inflight = some r) :
    exec r.cmd { s with turn := .engine } = .next (retire (performOf r.cmd r.ops { s with turn := .engine })) := by
  rw [exec_engine rfl, complete_inflight (s := { s with turn := .engine }) (c := r.ops) hi]

/-- A command in flight completes at the engine's turn with the registers and BYTES that its `exec` leaves, whatever the
bus has answered and whatever is still to come (R111). -/
theorem step_complete_outcome {s u : State} {r : InFlight} {q : List Event} (hr : u.rst = false)
    (hi : s.inflight = some r) (hu : u.inflight = some r) (hf : u.f = s.f) (hb : u.bytes = s.bytes)
    (hs : u.schedule = .complete :: q) :
    ∃ t, step u = .next t ∧ t.rst = false ∧ t.inflight = none ∧ t.done = true ∧ t.schedule = q ∧
      outcomeBytes (exec r.cmd { s with turn := .engine }) = some t.bytes ∧
      ∀ n : RegIdx, outcomeF (exec r.cmd { s with turn := .engine }) n = some (t.getF n) := by
  obtain ⟨ef, eb⟩ := performOf_congr r.cmd r.ops (s := { s with turn := .engine })
    (t := { u with schedule := q, turn := .engine }) hf.symm hb.symm
  refine ⟨retire (performOf r.cmd r.ops { u with schedule := q, turn := .engine }), ?_, ?_, rfl, rfl, ?_, ?_,
    fun n => ?_⟩
  · rw [step_complete hr hs hu]
    exact exec_inflight (s := { u with schedule := q }) hu
  · rw [retire_rst, performOf_rst, hr]
  · rw [retire_schedule, performOf_schedule]
  · rw [exec_inflight hi]
    exact congrArg some eb
  · rw [exec_inflight hi]
    exact congrArg some (getF_congr ef n)

end Sys2Proof.Machine
end

section
/-! The statements about the register window: what each access reads, stores, ignores or is refused, where the window
stands, and what `wait` sees. -/

namespace Sys2Proof.Machine

/-- Settles O10, by what the map has at a reserved offset. -/
theorem reservedOffsetsReadZeroIgnoreWrites : Obligations.ReservedOffsetsReadZeroIgnoreWrites := by
  intro s off rest hr ha h
  have hl := locate_reserved h
  refine ⟨fun hs => ?_, fun v hs => ?_⟩
  · rw [step_read hr hs ha, memRead_reserved hl]
  · rw [step_write hr hs ha (by rw [hl]; exact Loc.noConfusion), hl, memWrite_reserved]

/-- Settles O11, by the read of each location. -/
theorem windowReadsReturnRegisters : Obligations.WindowReadsReturnRegisters := fun _ _ hr =>
  ⟨fun hs => step_read hr hs (by decide), fun _ hs => step_read_bw hr hs, fun _ _ hs => step_read_fw hr hs⟩

/-- Settles O12: the word of a read is one of the architectural state, which the read before it left alone. -/
theorem readsHaveNoSideEffect : Obligations.ReadsHaveNoSideEffect := by
  intro s off rest hr ha hs
  refine ⟨memRead off s, _, step_read hr hs ha, rfl, ?_⟩
  rw [step_read (s := s.answered ..) hr rfl ha, memRead_answered]
  rfl

/-- Settles O13, by the word and the bytes a store reaches. -/
theorem idleOperandWriteStoresOneWord : Obligations.IdleOperandWriteStoresOneWord := by
  intro s v rest hr hi
  have hi' : (s.answered rest .ack).inflight = none := hi
  refine ⟨fun n k hs => ⟨(s.answered rest .ack).setFWord n k v, ?_, rfl, fun n' k' => ?_⟩,
    fun m hs => ⟨(s.answered rest .ack).setBytes (setBytesWord s.bytes m v), ?_, rfl, fun k => ?_⟩⟩
  · rw [step_write_fw hr hs, writeOperand_idle hi']
  · rw [getF_setFWord, getF_answered]
  · rw [step_write_bw hr hs, writeOperand_idle hi', answered_bytes]
  · rw [setBytes_bytes, setBytesWord_getElem, laneOf]

/-- Settles O14: the operand accesses of a busy block, and the effects that keep a command in flight. -/
theorem busyOperandWriteDroppedReadOld : Obligations.BusyOperandWriteDroppedReadOld := by
  refine ⟨fun s rest hr hi => ⟨?_, ?_⟩, fun s t h => (step_effect h).operands_kept⟩
  · rintro n k off rfl
    exact ⟨fun v hs => by rw [step_write_fw hr hs, writeOperand_answered_busy hi], fun hs => step_read_fw hr hs⟩
  · rintro m off rfl
    exact ⟨fun v hs => by rw [step_write_bw hr hs, writeOperand_answered_busy hi], fun hs => step_read_bw hr hs⟩

/-- Settles O15, by the two conditions of a legal access. -/
theorem illegalAccessIsBusError : Obligations.IllegalAccessIsBusError := by
  intro s a rest hr hs h
  rw [step, nextAction_access hr hs, hostAccess_illegal (wellFormed_eq_false h)]

/-- Settles O16, by where a host address falls. -/
theorem windowRoutesAddresses : Obligations.WindowRoutesAddresses := by
  refine ⟨Nat.mul_mod_right .., fun s a access => ⟨?_, fun h => ?_⟩⟩
  · rintro off rfl
    rw [State.present, windowOffset_mmBase_add]
  · rw [State.present, windowOffset_outside h]

/-- Settles O17, by the lanes of a word of BYTES. -/
theorem byteLanesAreLittleEndian : Obligations.ByteLanesAreLittleEndian := fun s m _ hr hs =>
  ⟨bytesWord s.bytes m, step_read_bw hr hs, laneOf_bytesWord s.bytes m⟩

/-- Settles O57: the reads before the completion find the block busy and as it was, the one after it finds it idle with
what the command's `exec` leaves. -/
theorem waitSeesTheCompletion : Obligations.WaitSeesTheCompletion := by
  intro s r k rest hr hi hs
  constructor
  · intro j hj
    obtain ⟨d, rfl⟩ : ∃ d, k = j + (d + 1) := Nat.exists_eq_add_of_lt hj
    rw [waitEvents, List.replicate_add, List.append_assoc, List.append_assoc] at hs
    refine runsTo_polls hr hs fun b a => runsTo_poll hr rfl ⟨rfl, rfl, _, rfl, ?_⟩
    rw [waitRepeats_statusWord]
    exact (busy_iff _).2 ⟨r, hi⟩
  · rw [waitEvents, List.append_assoc] at hs
    refine runsTo_polls hr hs fun b a => ?_
    obtain ⟨t, ht, htr, hti, htd, hts, hob, hof⟩ := step_complete_outcome (s := s)
      (u := { s with schedule := [.complete, pollEvent] ++ rest, turn := a, resp := b }) hr hi hi rfl rfl rfl
    refine runsTo_step ht (runsTo_poll htr hts ⟨hti, htd, rfl, ⟨_, rfl, ?_⟩, hob, hof⟩)
    rw [waitRepeats_statusWord]
    exact (not_busy_iff t).2 hti

end Sys2Proof.Machine
end

section
/-! SUPPORT. The rows of the match and mask table and the decoder: a word that matches a row is a command's word, and a
word that does not decode is of a kind R104 lists. -/

namespace Sys2Proof

/-- The word of a command has its fields, of which the opcode and P choose the command (R101, R105). -/
theorem decode_encode (i : Instr) : decode (encode i) = .ok i := by
  obtain ⟨h3, hb, h2, ha, h1, hd, h0, hp, ho⟩ := encode_fields i
  simp only [decode, h3, hb, h2, ha, h1, hd, h0, hp, ho]
  cases i <;> rfl

/-- A field that the mask keeps whole is the pattern's. -/
theorem field_eq_of_mask {w : Nat} {x mask pattern : BitVec w} (h : x &&& mask = pattern)
    (hm : mask = BitVec.allOnes w) : x = pattern := by
  rw [← h, hm, BitVec.and_allOnes]

/-- A word that matches a row matches it field by field (R101, R103). -/
theorem Form.fields_of_encodes {f : Form} {c : Word} (h : f.encodes c = true) :
    rsv3Field c &&& rsv3Field f.mask = rsv3Field f.pattern ∧ rs2Field c &&& rs2Field f.mask = rs2Field f.pattern ∧
      rsv2Field c &&& rsv2Field f.mask = rsv2Field f.pattern ∧ rs1Field c &&& rs1Field f.mask = rs1Field f.pattern ∧
      rsv1Field c &&& rsv1Field f.mask = rsv1Field f.pattern ∧ rdField c &&& rdField f.mask = rdField f.pattern ∧
      rsv0Field c &&& rsv0Field f.mask = rsv0Field f.pattern ∧ pField c &&& pField f.mask = pField f.pattern ∧
      opcField c &&& opcField f.mask = opcField f.pattern := by
  rw [← beq_iff_eq.1 h]
  refine ⟨?_, ?_, ?_, ?_, ?_, ?_, ?_, ?_, ?_⟩ <;> exact BitVec.extractLsb'_and.symm

/-- The mask of every row keeps the reserved bits, P and the opcode whole, and its reserved bits are 0 (R103). -/
theorem forms_mask : ∀ f ∈ forms,
    (rsv0Field f.mask = BitVec.allOnes 3 ∧ rsv1Field f.mask = BitVec.allOnes 1 ∧ rsv2Field f.mask = BitVec.allOnes 1 ∧
      rsv3Field f.mask = BitVec.allOnes 13 ∧ pField f.mask = BitVec.allOnes 1 ∧ opcField f.mask = BitVec.allOnes 4) ∧
    rsv0Field f.pattern = 0#3 ∧ rsv1Field f.pattern = 0#1 ∧ rsv2Field f.pattern = 0#1 ∧
      rsv3Field f.pattern = 0#13 := by
  decide

/-- The fields a row fixes in every word that matches it, its must-be-zero fields being those its mask keeps (R103). -/
theorem fixed_of_encodes {f : Form} {c : Word} (hf : f ∈ forms) (h : f.encodes c = true) :
    ¬(rsv0Field c ≠ 0#3 ∨ rsv1Field c ≠ 0#1 ∨ rsv2Field c ≠ 0#1 ∨ rsv3Field c ≠ 0#13) ∧
      (opcField c).toNat = (opcField f.pattern).toNat ∧ pField c = pField f.pattern ∧
      (rdField f.mask = BitVec.allOnes 3 → rdField c = rdField f.pattern) ∧
      (rs1Field f.mask = BitVec.allOnes 3 → rs1Field c = rs1Field f.pattern) ∧
      (rs2Field f.mask = BitVec.allOnes 3 → rs2Field c = rs2Field f.pattern) := by
  obtain ⟨h3, hb, h2, ha, h1, hd, h0, hp, ho⟩ := Form.fields_of_encodes h
  obtain ⟨⟨m0, m1, m2, m3, mp, mo⟩, p0, p1, p2, p3⟩ := forms_mask f hf
  refine ⟨?_, congrArg _ (field_eq_of_mask ho mo), field_eq_of_mask hp mp, field_eq_of_mask hd, field_eq_of_mask ha,
    field_eq_of_mask hb⟩
  rw [field_eq_of_mask h0 m0, field_eq_of_mask h1 m1, field_eq_of_mask h2 m2, field_eq_of_mask h3 m3, p0, p1, p2, p3]
  decide

/-- A word that matches a row is the word of a command: the row's, with the registers the word's fields name (R103). -/
theorem exists_encode_of_encodes {f : Form} {c : Word} (hf : f ∈ forms) (h : f.encodes c = true) :
    ∃ i, encode i = c ∧ f.mnemonic = i.mnemonic := by
  obtain ⟨hr, ho, hp, hd, h1, h2⟩ := fixed_of_encodes hf h
  simp only [forms, List.mem_cons, List.not_mem_nil, or_false] at hf
  rcases hf with rfl | rfl | rfl | rfl | rfl | rfl | rfl | rfl | rfl | rfl | rfl | rfl | rfl | rfl
  · exact ⟨.nop, encode_eq_of_fields hr ho hp (hd rfl) (h1 rfl) (h2 rfl), rfl⟩
  · exact ⟨.mul32 _ _ _, encode_eq_of_fields hr ho hp rfl rfl rfl, rfl⟩
  · exact ⟨.mul64 _ _ _, encode_eq_of_fields hr ho hp rfl rfl rfl, rfl⟩
  · exact ⟨.sqr32 _ _, encode_eq_of_fields hr ho hp rfl rfl (h2 rfl), rfl⟩
  · exact ⟨.sqr64 _ _, encode_eq_of_fields hr ho hp rfl rfl (h2 rfl), rfl⟩
  · exact ⟨.mul121666x32 _ _, encode_eq_of_fields hr ho hp rfl rfl (h2 rfl), rfl⟩
  · exact ⟨.mul121666x64 _ _, encode_eq_of_fields hr ho hp rfl rfl (h2 rfl), rfl⟩
  · exact ⟨.inv32 _ _, encode_eq_of_fields hr ho hp rfl rfl (h2 rfl), rfl⟩
  · exact ⟨.inv64 _ _, encode_eq_of_fields hr ho hp rfl rfl (h2 rfl), rfl⟩
  · exact ⟨.frombytes32 _, encode_eq_of_fields hr ho hp rfl (h1 rfl) (h2 rfl), rfl⟩
  · exact ⟨.frombytes64 _, encode_eq_of_fields hr ho hp rfl (h1 rfl) (h2 rfl), rfl⟩
  · exact ⟨.tobytes32 _, encode_eq_of_fields hr ho hp (hd rfl) rfl (h2 rfl), rfl⟩
  · exact ⟨.tobytes64 _, encode_eq_of_fields hr ho hp (hd rfl) rfl (h2 rfl), rfl⟩
  · exact ⟨.wipe, encode_eq_of_fields hr ho hp (hd rfl) (h1 rfl) (h2 rfl), rfl⟩

/-- The legal words are the ones that decode (R104, R105). -/
theorem legalWord_iff_decodes (c : Word) : legalWord c = true ↔ ∃ i, decode c = .ok i := by
  constructor
  · intro h
    obtain ⟨f, hf, hc⟩ := List.any_eq_true.1 h
    obtain ⟨i, rfl, -⟩ := exists_encode_of_encodes hf hc
    exact ⟨i, decode_encode i⟩
  · rintro ⟨i, hd⟩
    rw [← encode_of_decode hd]
    exact legalWord_encode i

theorem not_legalWord_iff_error (c : Word) : legalWord c = false ↔ ∃ e, decode c = .error e := by
  rw [← Bool.not_eq_true, legalWord_iff_decodes]
  cases decode c <;> simp

/-- The row a word matches is its command's (R103). -/
theorem mnemonic_of_encodes {f : Form} {c : Word} {i : Instr} (hf : f ∈ forms) (h : f.encodes c = true)
    (hd : decode c = .ok i) : f.mnemonic = i.mnemonic := by
  obtain ⟨j, rfl, hm⟩ := exists_encode_of_encodes hf h
  rw [decode_encode] at hd
  cases hd
  exact hm

theorem forms_mnemonic_inj : ∀ f ∈ forms, ∀ g ∈ forms, f.mnemonic = g.mnemonic → f = g := by
  decide

theorem exists_error_iff_of_guard {α ε : Type} {P : Prop} [Decidable P] {x : α} {e : ε} :
    (∃ e', (if P then Except.ok x else .error e) = .error e') ↔ ¬P := by
  split <;> simp [*]

/-- The kinds of words R104 lists are those the decoder rejects, a case per opcode. -/
theorem decode_error_iff (c : Word) : (∃ e, decode c = .error e) ↔
    (8 ≤ (opcField c).toNat ∨ rsv0Field c ≠ 0#3 ∨ rsv1Field c ≠ 0#1 ∨ rsv2Field c ≠ 0#1 ∨ rsv3Field c ≠ 0#13 ∨
      ((opcField c = 0#4 ∨ opcField c = 7#4) ∧
        (pField c ≠ 0#1 ∨ rdField c ≠ 0#3 ∨ rs1Field c ≠ 0#3 ∨ rs2Field c ≠ 0#3)) ∨
      ((opcField c = 2#4 ∨ opcField c = 3#4 ∨ opcField c = 4#4) ∧ rs2Field c ≠ 0#3) ∨
      (opcField c = 5#4 ∧ (rs1Field c ≠ 0#3 ∨ rs2Field c ≠ 0#3)) ∨
      (opcField c = 6#4 ∧ (rdField c ≠ 0#3 ∨ rs2Field c ≠ 0#3))) := by
  simp only [decode]
  split
  case isTrue hr => exact iff_of_true ⟨_, rfl⟩ (by tauto)
  case isFalse hr =>
    push Not at hr
    obtain ⟨r0, r1, r2, r3⟩ := hr
    split
    case h_1 ho | h_3 ho | h_4 ho | h_5 ho | h_6 ho | h_7 ho | h_8 ho => -- the opcodes with must-be-zero fields
      simp [exists_error_iff_of_guard, r0, r1, r2, r3, (BitVec.toNat_eq_nat.1 ho).2, -not_and, not_and_or]
    case h_2 ho => simp [r0, r1, r2, r3, (BitVec.toNat_eq_nat.1 ho).2] -- MUL
    case h_9 => exact iff_of_true ⟨_, rfl⟩ (.inl (by simp only [imp_false] at *; omega)) -- 8 to 15

end Sys2Proof
end

section
/-! SUPPORT. The issue of an admissible command, the engine's turn, a completion seen through the window, and the host
accesses that leave a command in flight alone. -/

namespace Sys2Proof.Machine

/-- An admissible command issued on an idle block is accepted with the operands it reads (R110). -/
theorem exec_accept {i : Instr} {s : State} (ht : s.turn = .host) (hi : s.inflight = none)
    (ha : operandsAdmissible i s = true) : exec i s = .next (accept i (operandsOf i s) s) := by
  rw [exec_host ht, issue_ok ((not_busy_iff s).2 hi) (captureOf_eq ha)]

/-- With no command in flight the engine's turn changes nothing (R111). -/
theorem engineTurn_idle {s : State} (hi : s.inflight = none) : engineTurn s = .go s := by
  rw [engineTurn, hi]

theorem step_complete_idle {s : State} {rest : List Event} (hs : s.schedule = .complete :: rest)
    (hi : s.inflight = none) : step s = .next { s with schedule := rest } := by
  have h : nextAction s = engineTurn { s with schedule := rest } := by rw [nextAction, hs]
  rw [step, h, engineTurn_idle (s := { s with schedule := rest }) hi]

theorem step_drain_idle {s : State} (hs : s.schedule = []) (hi : s.inflight = none) : step s = .next s := by
  have h : nextAction s = engineTurn s := by rw [nextAction, hs]
  rw [step, h, engineTurn_idle hi]

/-- A register that is not the destination of a command other than WIPE keeps its value (R30, R111). -/
theorem getF_performOf_of_ne {i : Instr} {n : RegIdx} (hw : i.op ≠ .wipe) (hn : i.writesF = true → n ≠ i.rd)
    (c : Captured) (s : State) : (performOf i c s).getF n = s.getF n := by
  cases hf : i.writesF with
  | true =>
    obtain ⟨w, h⟩ := performOf_writesF hf c s
    rw [h, getF_setF, if_neg (hn hf)]
  | false => exact getF_congr (performOf_f hf hw c s) n

/-- Seen through the window, the completion of a command other than WIPE changes STATUS and the command's destination
alone (R30, R85, R111). -/
theorem memRead_completed {i : Instr} {off : Offset} (c : Captured) (s : State) (hw : i.op ≠ .wipe)
    (ha : off.toNat % 4 = 0) (hst : off ≠ 0x008#10) (hf : i.writesF = true → ∀ k, off ≠ fwOffset i.rd k)
    (hb : i.op = .tobytes → ∀ m, off ≠ bwOffset m) :
    memRead off (retire (performOf i c (completing i c s))) = memRead off s := by
  cases hl : locate off with
  | status => exact absurd (eq_status_offset ha hl) hst
  | id | reserved => simp only [memRead, hl]
  | ctrl => simp only [memRead, hl, ctrlWord, retire_irqEn, performOf_irqEn]; rfl
  | cmd => simp only [memRead, hl, retire_lastCmd, performOf_lastCmd]; rfl
  | bw m =>
    have ht : i.op ≠ .tobytes := fun h => hb h m (eq_bwOffset ha hl)
    simp only [memRead, hl, retire_bytes, performOf_bytes ht hw]
    rfl
  | fw n k =>
    have hn : i.writesF = true → n ≠ i.rd := fun h e => hf h k (e ▸ eq_fwOffset ha hl)
    have h : (retire (performOf i c (completing i c s))).getF n = s.getF n :=
      getF_performOf_of_ne hw hn c (completing i c s)
    simp only [memRead, hl, h]

/-- A legal CMD write while a command is in flight is refused, whatever its word (R110, R204). -/
theorem step_cmd_busy {s : State} {c : Word} {rest : List Event} (hr : s.rst = false) (hi : s.inflight ≠ none)
    (hs : s.schedule = cmdWriteEvent c :: rest) : step s = .next (raiseErr .cmdWhileBusy (s.answered rest .ack)) := by
  have hb : (s.answered rest .ack).busy = true := Option.isSome_iff_ne_none.2 hi
  cases hd : decode c with
  | error e => rw [step_cmd_illegal hr hs hd, issueIllegal_eq, hb, if_pos rfl]
  | ok i => rw [step_cmd_legal hr hs hd, exec_host rfl, issue_busy hb]

theorem isSoftReset_ctrl (v : Word) : Event.isSoftReset (.access (.write 0x004#10 .word v)) = v.getLsbD 0 := rfl

/-- A write outside CMD that is no soft reset leaves a command in flight, and what it will read and write, alone
(R39, R78). -/
theorem memWrite_keepsCommand {loc : Loc} {v : Word} {s : State} (hi : s.inflight ≠ none)
    (hv : loc = .ctrl → v.getLsbD 0 = false) :
    (memWrite loc v s).rst = s.rst ∧ (memWrite loc v s).inflight = s.inflight ∧ (memWrite loc v s).f = s.f ∧
      (memWrite loc v s).bytes = s.bytes ∧ (memWrite loc v s).schedule = s.schedule := by
  rcases memWrite_cases loc v s with h | ⟨hl, h0, -⟩ | ⟨-, -, h⟩ | ⟨-, h⟩ | ⟨-, h⟩ | ⟨hn, -⟩ | ⟨hn, -⟩
  · rw [h]; simp
  · rw [hv hl] at h0; cases h0
  · rw [h]; simp
  · rw [h]; simp
  · rw [h]; simp
  · exact absurd hn hi
  · exact absurd hn hi

/-- A legal access that is no soft reset leaves a command in flight, the registers and BYTES as they are (R78). -/
theorem step_keepsCommand {s : State} {a : Access} {rest : List Event} (hr : s.rst = false) (hi : s.inflight ≠ none)
    (hs : s.schedule = .access a :: rest) (hk : (Event.access a).keepsCommand = true) :
    ∃ t, step s = .next t ∧ t.rst = false ∧ t.inflight = s.inflight ∧ t.f = s.f ∧ t.bytes = s.bytes ∧
      t.schedule = rest := by
  simp only [Event.keepsCommand, Access.wellFormed, Access.wordWide, Access.aligned, Bool.and_eq_true, beq_iff_eq,
    Bool.not_eq_true'] at hk
  obtain ⟨⟨hw, ha⟩, hsoft⟩ := hk
  cases a with
  | read off width =>
    obtain rfl : width = .word := hw
    exact ⟨_, step_read hr hs ha, hr, rfl, rfl, rfl, rfl⟩
  | write off width v =>
    obtain rfl : width = .word := hw
    by_cases hc : locate off = .cmd
    · obtain rfl := eq_cmd_offset ha hc
      exact ⟨_, step_cmd_busy hr hi hs, by simp [hr]⟩
    · have hv (hl : locate off = .ctrl) : v.getLsbD 0 = false := by
        obtain rfl := eq_ctrl_offset ha hl
        rwa [isSoftReset_ctrl] at hsoft
      obtain ⟨h1, h2, h3, h4, h5⟩ := memWrite_keepsCommand (s := s.answered rest .ack) hi hv
      exact ⟨_, step_write hr hs ha hc, h1.trans hr, h2, h3, h4, h5⟩

/-- The engine's turn with a command in flight ends it and sets DONE (R111). -/
theorem step_engine_retires {s : State} {r : InFlight} (hr : s.rst = false) (hi : s.inflight = some r)
    (hn : s.nextIsEngine = true) : ∃ t, step s = .next t ∧ t.inflight = none ∧ t.done = true := by
  obtain ⟨q, hs⟩ : ∃ q, step s = exec r.cmd { s with schedule := q, turn := .engine } := by
    cases hs : s.schedule with
    | nil => exact ⟨[], (step_drain hr hs hi).trans (by rw [hs])⟩
    | cons e q =>
      obtain rfl : e = .complete := by simpa [State.nextIsEngine, hs] using hn
      exact ⟨q, step_complete hr hs hi⟩
  exact ⟨_, hs.trans (exec_inflight (s := { s with schedule := q }) hi), rfl, rfl⟩

/-- The completion of the command in flight and the STATUS read after it: the block is left with the registers and BYTES
that the command's `exec` leaves from any state with the same ones, idle and with DONE set, and else as it was
(R111). -/
theorem runsTo_complete_poll {s u : State} {r : InFlight} {rest : List Event} {good : State → Prop}
    (hr : u.rst = false) (hi : s.inflight = some r) (hu : u.inflight = some r) (hf : u.f = s.f)
    (hb : u.bytes = s.bytes) (hs : u.schedule = .complete :: pollEvent :: rest)
    (h : ∀ t : State, t = { u with
        f := t.f, bytes := t.bytes, inflight := none, done := true, turn := .engine, schedule := pollEvent :: rest } →
      outcomeBytes (exec r.cmd { s with turn := .engine }) = some t.bytes →
      (∀ n : RegIdx, outcomeF (exec r.cmd { s with turn := .engine }) n = some (t.getF n)) →
      good (t.answered rest (.data (statusWord t)))) : runsTo 2 u good := by
  obtain ⟨t, ht, htr, -, -, hts, hob, hof⟩ := step_complete_outcome hr hi hu hf hb hs
  refine runsTo_step ht (runsTo_poll htr hts (h t ?_ hob hof))
  rw [step_complete hr hs hu, exec_inflight (s := { u with schedule := pollEvent :: rest }) hu] at ht
  injection ht with ht
  rw [← ht, performOf_control]
  rfl

end Sys2Proof.Machine
end

section
/-! SUPPORT. A list of operand writes on an idle block, and what the load sequences of R107 leave by it. -/

namespace Sys2Proof.Machine

/-- Updates that each give the places of one owner their target value have given it to every place whose owner was
among them. -/
theorem foldl_overwrite {α β ι κ : Type} [DecidableEq ι] {upd : α → ι → α} {get : α → κ → β} {owner : κ → ι}
    {target : κ → β} (h : ∀ a i k, get (upd a i) k = if owner k = i then target k else get a k) (l : List ι) (a : α)
    (k : κ) : get (l.foldl upd a) k = if owner k ∈ l then target k else get a k := by
  induction l generalizing a with
  | nil => simp
  | cons i l ih =>
    rw [List.foldl_cons, ih, h]
    by_cases hi : owner k = i
    · simp [hi]
    · simp [hi]

/-- Writing every word of a register leaves the ten words written. -/
theorem foldl_set_eq (v w : FReg) : (List.finRange 10).foldl (fun v k => v.set k w[k]) v = w := by
  ext k hk : 1
  have h := foldl_overwrite (upd := fun (v : FReg) (i : Fin 10) => v.set i w[i]) (get := fun v (k : Fin 10) => v[k])
    (owner := id) (target := fun k => w[k]) (fun v i k => ?_) (List.finRange 10) v ⟨k, hk⟩
  · simpa using h
  · simp only [Fin.getElem_fin, Vector.getElem_set, id, Fin.ext_iff, eq_comm]
    split
    next e => simp only [e]
    · rfl

/-- Writing every word of BYTES leaves the string the words were taken from. -/
theorem foldl_setBytesWord_eq (x b : ByteString) :
    (List.finRange 8).foldl (fun x m => setBytesWord x m (bytesWord b m)) x = b := by
  ext k hk : 1
  have h := foldl_overwrite (upd := fun x m => setBytesWord x m (bytesWord b m)) (get := fun x (k : Fin 32) => x[k])
    (owner := fun k => (⟨k.val / 4, by omega⟩ : Fin 8)) (target := fun k => b[k]) (fun x m k => ?_) (List.finRange 8) x
    ⟨k, hk⟩
  · simpa using h
  · simp only [setBytesWord_getElem, Fin.ext_iff]
    split
    next hm => simp only [laneOf_bytesWord, ← hm, Nat.div_add_mod, Fin.getElem_fin]
    · rfl

/-- Events that each do one store, on a block that stays idle, do them all in their order; the bus ends with the answer
to the last. -/
theorem run_stores {ι : Type} {ev : ι → Event} {store : State → ι → State}
    (hstep : ∀ {s i rest}, s.rst = false → s.inflight = none → s.schedule = ev i :: rest →
      step s = .next ((store s i).answered rest .ack))
    (hrst : ∀ s i, (store s i).rst = s.rst) (hinf : ∀ s i, (store s i).inflight = s.inflight)
    (hans : ∀ s i rest, store (s.answered rest .ack) i = (store s i).answered rest .ack) {rest : List Event}
    {l : List ι} (hl : l ≠ []) {s : State} (hr : s.rst = false) (hi : s.inflight = none)
    (hs : s.schedule = l.map ev ++ rest) :
    Sys2Proof.core.run l.length s = .next ((l.foldl store s).answered rest .ack) := by
  induction l generalizing s with
  | nil => exact absurd rfl hl
  | cons i l ih =>
    refine (run_step (hstep hr hi hs) l.length).trans ?_
    cases l with
    | nil => rfl
    | cons j l =>
      refine (ih (List.cons_ne_nil j l) (s := (store s i).answered ((j :: l).map ev ++ rest) .ack) ((hrst ..).trans hr)
        ((hinf ..).trans hi) rfl).trans ?_
      rw [List.foldl_hom (State.answered · _ .ack) fun s i => hans s i _]
      rfl

/-- The store of word `m` of a string into BYTES. -/
def storeString (b : ByteString) (s : State) (m : Fin 8) : State :=
  s.setBytes (setBytesWord s.bytes m (bytesWord b m))

/-- The store of word `k` of a register image into `F[n]`. -/
def storeImage (n : RegIdx) (w : FReg) (s : State) (k : Fin 10) : State := s.setFWord n k w[k]

theorem storeString_setBytes (b x : ByteString) (s : State) (m : Fin 8) :
    storeString b (s.setBytes x) m = s.setBytes (setBytesWord x m (bytesWord b m)) := by
  rw [storeString, setBytes_bytes]
  rfl

theorem storeString_answered (b : ByteString) (s : State) (m : Fin 8) (rest : List Event) :
    storeString b (s.answered rest .ack) m = (storeString b s m).answered rest .ack := by
  rw [storeString, storeString, answered_bytes]
  rfl

/-- Storing the eight words of a string stores the string. -/
theorem foldl_storeString (b : ByteString) (s : State) : (List.finRange 8).foldl (storeString b) s = s.setBytes b := by
  have h := List.foldl_hom (l := List.finRange 8) (init := s.bytes) s.setBytes fun x => storeString_setBytes b x s
  rwa [foldl_setBytesWord_eq] at h

theorem setF_getF (s : State) (n : RegIdx) : s.setF n (s.getF n) = s := by
  rw [State.setF, State.getF, Fin.getElem_fin, Vector.set_getElem_self]

theorem storeImage_setF (n : RegIdx) (v w : FReg) (s : State) (k : Fin 10) :
    storeImage n w (s.setF n v) k = s.setF n (v.set k w[k]) := by
  rw [storeImage, State.setFWord, getF_setF_same, State.setF, setF_f, Vector.set_set]
  rfl

/-- Storing the ten words of an image stores the image. -/
theorem foldl_storeImage (n : RegIdx) (w : FReg) (s : State) :
    (List.finRange 10).foldl (storeImage n w) s = s.setF n w := by
  have h := List.foldl_hom (l := List.finRange 10) (init := s.getF n) (s.setF n) fun v => storeImage_setF n v w s
  rwa [foldl_set_eq, setF_getF] at h

theorem step_storeString {b : ByteString} {s : State} {m : Fin 8} {rest : List Event} (hr : s.rst = false)
    (hi : s.inflight = none) (hs : s.schedule = writeEvent (bwOffset m) (bytesWord b m) :: rest) :
    step s = .next ((storeString b s m).answered rest .ack) := by
  rw [step_write_bw hr hs, writeOperand_idle (s := s.answered rest .ack) hi]
  rfl

theorem step_storeImage {n : RegIdx} {w : FReg} {s : State} {k : Fin 10} {rest : List Event} (hr : s.rst = false)
    (hi : s.inflight = none) (hs : s.schedule = writeEvent (fwOffset n k) w[k] :: rest) :
    step s = .next ((storeImage n w s k).answered rest .ack) := by
  rw [step_write_fw hr hs, writeOperand_idle (s := s.answered rest .ack) hi]
  rfl

end Sys2Proof.Machine
end

section
/-! The statements about the encoding and the commands: the decoder and the match and mask table, the load sequences,
what each command's issue captures, and what its completion and a whole run leave. -/

namespace Sys2Proof.Machine

/-- Settles O24, by the fields of an encoded command. -/
theorem decodeOfEncodeIsSame : Obligations.DecodeOfEncodeIsSame := decode_encode

/-- Settles O18: the writes of a load sequence store their words one by one, and all the words are the whole. -/
theorem loadSequencesLoadExactly : Obligations.LoadSequencesLoadExactly := by
  refine fun s rest hr hi => ⟨fun b hs => ?_, fun n w hs => ?_⟩
  · have h := run_stores (step_storeString (b := b)) (fun _ _ => setBytes_rst ..) (fun _ _ => setBytes_inflight ..)
      (storeString_answered b) (by decide : List.finRange 8 ≠ []) hr hi hs
    rwa [List.length_finRange, foldl_storeString] at h
  · have h := run_stores (step_storeImage (n := n) (w := w)) (fun _ _ => rfl) (fun _ _ => rfl) (fun _ _ _ => rfl)
      (by decide : List.finRange 10 ≠ []) hr hi hs
    rwa [List.length_finRange, foldl_storeImage] at h

/-- Settles O19, by the kinds of words the decoder rejects and the issue of one on an idle block. -/
theorem illegalWordsAreRejected : Obligations.IllegalWordsAreRejected := by
  refine ⟨fun c => (not_legalWord_iff_error c).trans (decode_error_iff c), fun s c rest hr hi hc hs => ?_⟩
  obtain ⟨e, hd⟩ := (not_legalWord_iff_error c).1 hc
  rw [step_cmd_illegal hr hs hd, issueIllegal_eq, (not_busy_iff (s.answered rest .ack)).2 hi, raiseErr_eq_withError]
  rfl

/-- Settles O25, by the fields of a word that decodes. -/
theorem encodeOfDecodeIsSame : Obligations.EncodeOfDecodeIsSame := fun _ _ => encode_of_decode

/-- Settles O26: the legal words are those of the commands, and two rows that match one word have its command's
mnemonic. -/
theorem decodesExactlyTableRows : Obligations.DecodesExactlyTableRows := by
  refine fun c => ⟨legalWord_iff_decodes c, fun f hf h i => mnemonic_of_encodes hf h, fun f g hf hg h h' => ?_⟩
  obtain ⟨i, hd⟩ := (legalWord_iff_decodes c).1 (List.any_eq_true.2 ⟨f, hf, h⟩)
  exact forms_mnemonic_inj f hf g hg ((mnemonic_of_encodes hf h hd).trans (mnemonic_of_encodes hg h' hd).symm)

/-- Settles O40, by what stands at each aligned offset. -/
theorem completionFrameInWindow : Obligations.CompletionFrameInWindow := fun s i c _ hw ha hst hf hb =>
  ⟨_, exec_completing i c s, memRead_completed c s (fun h => hw (op_eq_wipe h)) ha hst hf hb⟩

/-- Settles O56, by induction on the events to come: the engine's turn completes the command, a legal access before it
leaves the block busy and its operands alone. -/
theorem acceptedCommandCompletes : Obligations.AcceptedCommandCompletes := by
  intro s r hr hi hk
  generalize hl : s.schedule = l at hk ⊢
  induction l generalizing s with
  | nil => exact ⟨0, s, le_rfl, rfl, hi, rfl, rfl, step_engine_retires hr hi (by rw [State.nextIsEngine, hl])⟩
  | cons e rest ih =>
    obtain ⟨he, hrest⟩ := List.forall_mem_cons.1 hk
    cases e with
    | complete =>
      exact ⟨0, s, Nat.zero_le _, rfl, hi, rfl, rfl, step_engine_retires hr hi (by rw [State.nextIsEngine, hl]; rfl)⟩
    | rst level => cases he
    | access a =>
      obtain ⟨t, ht, htr, hti, htf, htb, hts⟩ := step_keepsCommand hr (hi ▸ Option.some_ne_none r) hl he
      obtain ⟨k, u, hku, hu, hui, huf, hub, hend⟩ := ih t htr (hti.trans hi) hts hrest
      exact ⟨k + 1, u, Nat.succ_le_succ hku, (run_step ht k).trans hu, hui, huf.trans htf, hub.trans htb, hend⟩

/-- Settles O58: the issue captures the operands, the reads before the completion leave the block as it was, the
completion has the effect of the command's `exec`, and the read after it ends the loop. -/
theorem everyCommandRunsEndToEnd : Obligations.EveryCommandRunsEndToEnd := by
  intro s i k rest hr hi ha hs
  have hs' : s.schedule =
      cmdWriteEvent (encode i) :: (List.replicate k pollEvent ++ .complete :: pollEvent :: rest) := by
    rw [hs, runEvents, waitEvents, List.append_assoc, List.append_assoc]
    rfl
  refine runsTo_step (step_accept hr hi hs' (decode_encode i) ha) (runsTo_polls hr rfl fun b a => ?_)
  refine runsTo_complete_poll (s := completing i (operandsOf i s) s) hr rfl rfl rfl rfl rfl fun t ht hob hof =>
    ⟨hob, hof, ?_, _, rfl, ?_⟩
  · rw [hi]
    exact congrArg (State.answered · rest _) ht
  · rw [waitRepeats_statusWord]
    exact (not_busy_iff t).2 (congrArg State.inflight ht)

/-- Settles O27, word by word. -/
theorem sampleWordsDecode : Obligations.SampleWordsDecode :=
  ⟨decode_encode (.mul64 3 1 2), decode_encode (.mul32 7 7 7), decode_encode (.sqr32 1 0),
    decode_encode (.mul121666x64 5 6), decode_encode (.inv32 4 2), decode_encode (.frombytes64 3),
    decode_encode (.tobytes64 3), decode_encode .nop, decode_encode .wipe⟩

/-- Settles O29, by the engine's turn with and without a command in flight. -/
theorem engineTurnCompletesInFlight : Obligations.EngineTurnCompletesInFlight :=
  ⟨fun _ _ _ hr hs hi => step_complete hr hs hi, fun _ _ hr hs hi => step_drain hr hs hi,
    fun _ _ hs hi => step_complete_idle hs hi, fun _ hs hi => step_drain_idle hs hi⟩

/-- Settles O30, by the acceptance of an admissible command. -/
theorem mulIsAccepted : Obligations.MulIsAccepted := fun _ _ _ _ ht hi =>
  ⟨fun h1 h2 => exec_accept ht hi (Bool.and_eq_true_iff.2 ⟨h1, h2⟩),
    fun h1 h2 => exec_accept ht hi (Bool.and_eq_true_iff.2 ⟨h1, h2⟩)⟩

/-- Settles O31, by the acceptance of an admissible command. -/
theorem oneOperandCommandsAreAccepted : Obligations.OneOperandCommandsAreAccepted := by
  intro s rd rs1 ht hi
  simp only [List.forall_mem_cons, List.not_mem_nil, false_implies, implies_true, and_true]
  refine ⟨⟨?_, ?_, ?_, ?_⟩, ?_, ?_, ?_, ?_⟩ <;> exact fun ha => exec_accept ht hi ha

/-- Settles O32, by the acceptance of a command whose operands are not tested. -/
theorem untestedCommandsAreAccepted : Obligations.UntestedCommandsAreAccepted := by
  intro s rd ht hi
  simp only [List.forall_mem_cons, List.not_mem_nil, false_implies, implies_true, and_true]
  exact ⟨⟨exec_accept ht hi rfl, exec_accept ht hi rfl⟩, exec_accept ht hi rfl, exec_accept ht hi rfl⟩

end Sys2Proof.Machine
end

section
/-! SUPPORT. What the completion of TOBYTES and FROMBYTES leaves, what a run of each leaves, and FROMBYTES then TOBYTES
of one register (R130 to R135). -/

namespace Sys2Proof.Machine

/-! The encoding of a residue. -/

theorem bytesOfInt_getElem_toNat (r : Nat) (k : Fin 32) :
    (bytesOfInt r)[k].toNat = r / 2 ^ (8 * k.val) % 256 := by
  rw [bytesOfInt, Fin.getElem_fin, Vector.getElem_ofFn, BitVec.toNat_ofNat, slice, Nat.mod_mod]
  norm_num

theorem intOfBytes_bytesOfInt_residue (x : Int) : intOfBytes (bytesOfInt (residue x)) = residue x :=
  intOfBytes_bytesOfInt _ (residue_lt_two_pow_256 x)

/-- Two encodings are one string exactly when the integers are congruent (R132). -/
theorem bytesOfInt_residue_eq_iff (x y : Int) :
    bytesOfInt (residue x) = bytesOfInt (residue y) ↔ x ≡ y [ZMOD (Config.p : Int)] :=
  (bytesOfInt_inj (residue_lt_two_pow_256 x) (residue_lt_two_pow_256 y)).trans (residue_eq_iff x y)

/-- p as an integer, written out (R1). -/
theorem p_cast : (Config.p : Int) = 2 ^ 255 - 19 := by norm_num [Config.p]

/-- The values of 255 bits that are not below p are below 2p (R133). -/
theorem mod_p_eq_sub {v : Nat} (hp : Config.p ≤ v) (hv : v < 2 ^ 255) : v % Config.p = v - Config.p := by
  have h2 : v - Config.p < Config.p := by norm_num [Config.p] at *; omega
  rw [Nat.mod_eq_sub_mod hp, Nat.mod_eq_of_lt h2]

/-! The completions. -/

/-- The completion of FROMBYTES writes the limb form of the string without bit 255 to its register (R130). -/
theorem exec_completing_frombytes {i : Instr} (h : i.op = .frombytes) (c : Captured) (s : State) :
    exec i (completing i c s) =
      .next ((completing i c s).completedF i.rd (radix i.path (intOfBytes c.x % 2 ^ 255))) := by
  rw [exec_completing, performOf_frombytes h]
  rfl

/-- The completion of TOBYTES writes the bytes of the operand's residue to BYTES (R131). -/
theorem exec_completing_tobytes {i : Instr} (h : i.op = .tobytes) (c : Captured) (s : State) :
    exec i (completing i c s) = .next { s with
      turn := .engine, inflight := none, done := true, bytes := bytesOfInt (residue (val i.path c.a)) } := by
  rw [exec_completing, performOf_tobytes h, performToBytes, State.setBytes, retire, completing]

theorem outcomeBytes_tobytes {i : Instr} (h : i.op = .tobytes) (c : Captured) (s : State) :
    outcomeBytes (exec i (completing i c s)) = some (bytesOfInt (residue (val i.path c.a))) := by
  rw [exec_completing_tobytes h, outcomeBytes]

/-- The completion of TOBYTES byte by byte, with the state it leaves written out (R131). -/
theorem exists_completing_tobytes {i : Instr} (h : i.op = .tobytes) (c : Captured) (s : State) :
    ∃ t, exec i (completing i c s) = .next t ∧
      t = { s with turn := .engine, inflight := none, done := true, bytes := t.bytes } ∧
      ∀ k : Fin 32, t.bytes[k].toNat = residue (val i.path c.a) / 2 ^ (8 * k.val) % 256 :=
  ⟨_, exec_completing_tobytes h c s, rfl, bytesOfInt_getElem_toNat _⟩

/-! The runs. -/

/-- FROMBYTES issued on an idle block and completed at the next event (R110, R130). -/
theorem runsTo_frombytes {s : State} {i : Instr} {q : List Event} {k : Nat} {good : State → Prop}
    (h : i.op = .frombytes) (hr : s.rst = false) (hi : s.inflight = none)
    (hs : s.schedule = cmdWriteEvent (encode i) :: .complete :: q)
    (ht : ∀ t : State, t.rst = false → t.inflight = none → t.schedule = q → t.err = s.err →
      t.getF i.rd = radix i.path (intOfBytes s.bytes % 2 ^ 255) → runsTo k t good) : runsTo (k + 2) s good := by
  have ha : operandsAdmissible i s = true := by rw [operandsAdmissible, h]
  have hx : (operandsOf i s).x = s.bytes := by rw [operandsOf, h]
  refine runsTo_command hr hi (decode_encode i) hs (captureOf_eq ha) (ht _ ?_ ?_ ?_ ?_ ?_)
  · rw [commandDone_rst, hr]
  · rw [commandDone_inflight]
  · rw [commandDone_schedule]
  · rw [commandDone_err]
  · rw [commandDone_frombytes h, hx]

/-- TOBYTES of an admissible register, issued on an idle block and completed at the next event (R110, R131). -/
theorem runsTo_tobytes {s : State} {i : Instr} {q : List Event} {k : Nat} {good : State → Prop}
    (h : i.op = .tobytes) (hr : s.rst = false) (hi : s.inflight = none) (ha : adm i.path (s.getF i.rs1) = true)
    (hs : s.schedule = cmdWriteEvent (encode i) :: .complete :: q)
    (ht : ∀ t : State, t.rst = false → t.inflight = none → t.schedule = q → t.err = s.err →
      intOfBytes t.bytes = residue (val i.path (s.getF i.rs1)) → runsTo k t good) : runsTo (k + 2) s good := by
  have ha' : operandsAdmissible i s = true := by rw [operandsAdmissible, h]; exact ha
  have hx : (operandsOf i s).a = s.getF i.rs1 := by rw [operandsOf, h]
  refine runsTo_command hr hi (decode_encode i) hs (captureOf_eq ha') (ht _ ?_ ?_ ?_ ?_ ?_)
  · rw [commandDone_rst, hr]
  · rw [commandDone_inflight]
  · rw [commandDone_schedule]
  · rw [commandDone_err]
  · rw [commandDone_tobytes h, hx, intOfBytes_bytesOfInt_residue]

/-- FROMBYTES then TOBYTES of the same register on one path leave the string without bit 255, reduced mod p (R133). -/
theorem runsTo_frombytes_tobytes {s : State} {x y : Instr} {rest : List Event} {good : State → Prop}
    (hx : x.op = .frombytes) (hy : y.op = .tobytes) (hp : y.path = x.path) (hn : y.rs1 = x.rd) (hr : s.rst = false)
    (hi : s.inflight = none)
    (hs : s.schedule = cmdWriteEvent (encode x) :: .complete :: cmdWriteEvent (encode y) :: .complete :: rest)
    (hg : ∀ t : State, t.err = s.err → intOfBytes t.bytes = intOfBytes s.bytes % 2 ^ 255 % Config.p → good t) :
    runsTo 4 s good := by
  refine runsTo_frombytes hx hr hi hs fun t htr hti hts hte htf => ?_
  rw [← hn, ← hp] at htf
  refine runsTo_tobytes hy htr hti (by rw [htf, adm_radix]) hts fun u _ _ _ hue hub => runsTo_zero (hg u ?_ ?_)
  · rw [hue, hte]
  · rw [hub, htf, val_radix _ _ (Nat.mod_lt _ (by norm_num)), residue_nat]

end Sys2Proof.Machine
end

section
/-! The statements about the conversions: what each completion leaves, the encoding of a residue, the round trip of a
string, and the agreement of the two paths. -/

namespace Sys2Proof.Machine

/-- Settles O38, by the bytes of the residue of the operand's value on each path. -/
theorem toBytesCompletes : Obligations.ToBytesCompletes := by
  intro s rs1 c
  constructor
  · have h := exists_completing_tobytes (i := .tobytes32 rs1) rfl c s
    simp only [residue, p_cast] at h
    exact h
  · have h := exists_completing_tobytes (i := .tobytes64 rs1) rfl c s
    simp only [Instr.path, val, residue_nat] at h
    exact h

/-- Settles O42: the string of a result is the encoding of a residue, which is below p. -/
theorem toBytesIsCanonical : Obligations.ToBytesIsCanonical := by
  intro s rs1 c d i hi
  have ho : i.op = .tobytes := by rcases hi with rfl | rfl <;> rfl
  refine ⟨_, _, outcomeBytes_tobytes ho c s, outcomeBytes_tobytes ho d s, ?_, ?_, bytesOfInt_residue_eq_iff _ _⟩
  · rw [intOfBytes_bytesOfInt_residue]
    exact residue_lt _
  · rw [topBit_eq, intOfBytes_bytesOfInt_residue]
    exact decide_eq_false (residue_lt_two_pow _).not_ge

/-- Settles O43: the pair leaves the string's integer mod 2^255 and then mod p, whose cases are those of bit 255 and of
the comparison with p. -/
theorem byteRoundTrip : Obligations.ByteRoundTrip := by
  intro s rd rest x y hr hi hxy hs
  obtain ⟨hx, hy, hp, hn⟩ : x.op = .frombytes ∧ y.op = .tobytes ∧ y.path = x.path ∧ y.rs1 = x.rd := by
    rcases hxy with ⟨rfl, rfl⟩ | ⟨rfl, rfl⟩ <;> exact ⟨rfl, rfl, rfl, rfl⟩
  refine runsTo_frombytes_tobytes hx hy hp hn hr hi hs fun t hte htb => ⟨hte, ?_⟩
  rw [← intOfBytes_injective.eq_iff, topBit_eq, htb, decide_eq_false_iff_not, decide_eq_true_iff, not_le]
  have hlt : intOfBytes s.bytes < 2 ^ 255 + 2 ^ 255 := (intOfBytes_lt s.bytes).trans_eq (by norm_num)
  have hsub (h : 2 ^ 255 ≤ intOfBytes s.bytes) : intOfBytes s.bytes % 2 ^ 255 = intOfBytes s.bytes - 2 ^ 255 := by
    rw [Nat.mod_eq_sub_mod h, Nat.mod_eq_of_lt (Nat.sub_lt_left_of_lt_add h hlt)]
  refine ⟨fun h => ?_, fun h hle => ?_, fun h hlt' => ?_, fun h hle => ?_⟩
  · rw [Nat.mod_eq_of_lt h, Nat.mod_eq_iff_lt p_pos.ne']
  · rw [Nat.mod_eq_of_lt h, mod_p_eq_sub hle h]
  · rw [hsub h, Nat.mod_eq_of_lt hlt']
  · rw [hsub h, mod_p_eq_sub hle (Nat.sub_lt_left_of_lt_add h hlt)]

/-- Settles O44: what the pair leaves does not name the path, and neither does the encoding of a residue. -/
theorem pathsAgreeAtTheEncoding : Obligations.PathsAgreeAtTheEncoding := by
  refine ⟨?_, fun s rs1 rs1' c d => ⟨_, _, outcomeBytes_tobytes rfl c s, outcomeBytes_tobytes rfl d s,
    bytesOfInt_residue_eq_iff _ _⟩⟩
  rintro s₁ _ rd rest hr hi hs rfl
  refine runsTo_frombytes_tobytes (x := .frombytes32 rd) (y := .tobytes32 rd) rfl rfl rfl rfl hr hi hs
    fun t₁ _ h₁ => ?_
  exact runsTo_frombytes_tobytes (x := .frombytes64 rd) (y := .tobytes64 rd) rfl rfl rfl rfl hr hi rfl fun t₂ _ h₂ =>
    intOfBytes_injective (h₁.trans h₂.symm)

/-- Settles O45: TOBYTES leaves the residue, which has no bit 255 for FROMBYTES to drop. -/
theorem pathConversionIsCanonical : Obligations.PathConversionIsCanonical := by
  intro s n rest x y hr hi hxy ha hs
  obtain ⟨hx, hy, rfl, hn⟩ : x.op = .tobytes ∧ y.op = .frombytes ∧ x.rs1 = n ∧ y.rd = n := by
    rcases hxy with ⟨rfl, rfl⟩ | ⟨rfl, rfl⟩ <;> exact ⟨rfl, rfl, rfl, rfl⟩
  refine runsTo_tobytes hx hr hi ha hs fun t htr hti hts _ htb => ?_
  refine runsTo_frombytes hy htr hti hts fun u _ _ _ _ huf => runsTo_zero ?_
  rw [← hn, huf, htb, hn, Nat.mod_eq_of_lt (residue_lt_two_pow _), canon]

/-- Settles O37, by the completion of FROMBYTES on each path. -/
theorem fromBytesCompletes : Obligations.FromBytesCompletes := fun s rd c =>
  ⟨exec_completing_frombytes (i := .frombytes32 rd) rfl c s, exec_completing_frombytes (i := .frombytes64 rd) rfl c s⟩

end Sys2Proof.Machine
end

section
/-! SUPPORT. What the completion of MUL, SQR, MUL121666 and INV leaves: the canonical form of one integer in the
destination register (R150 to R152, R180), its limbs, and the product of two registers as an operation (R155). -/

namespace Sys2Proof.Machine

/-! The canonical form on each path (R34). -/

theorem canon_limb32 (x : Int) : canon .limb32 x = radix32 (x % (2 ^ 255 - 19)).toNat := by
  rw [canon, residue, p_cast, radix]

theorem canon_limb64 (v : Nat) : canon .limb64 v = radix64 (v % (2 ^ 255 - 19)) := by
  rw [canon, residue_nat, Config.p, radix]

theorem radix32_getElem_toNat (v : Nat) (k : Fin 10) :
    (radix32 v)[k].toNat = slice v (pos32 k.val) (width32 k.val) := by
  have h := slice_width32_lt v k.val
  rw [radix32, Fin.getElem_fin, Vector.getElem_ofFn, BitVec.toNat_ofNat, Nat.mod_eq_of_lt (h.trans (by norm_num))]

/-- The words of a limb form are within MASK26 and MASK25 by turns (R34, R153). -/
theorem radix32_getElem_le (v : Nat) (k : Fin 10) :
    (radix32 v)[k].toNat ≤ if k.val % 2 = 0 then 0x3ffffff else 0x1ffffff := by
  have hmask : 2 ^ width32 k.val - 1 = if k.val % 2 = 0 then 0x3ffffff else 0x1ffffff := by
    unfold width32
    split <;> rfl
  rw [radix32_getElem_toNat, ← hmask]
  exact Nat.le_sub_one_of_lt (slice_lt ..)

/-- The limbs of a limb form are within MASK51 (R34, R153). -/
theorem limb64_radix64_le (v : Nat) (k : Fin 5) : limb64 (radix64 v) k ≤ 0x7ffffffffffff := by
  rw [limb64_radix64]
  exact Nat.le_of_lt_succ (slice_lt ..)

/-! A command that leaves the canonical form of an integer. -/

theorem performOf_sqr {i : Instr} (h : i.op = .sqr) : performOf i = performSqr i.path i.rd := by
  rw [performOf, h]

theorem performOf_mul121666 {i : Instr} (h : i.op = .mul121666) : performOf i = performMul121666 i.path i.rd := by
  rw [performOf, h]

theorem performOf_inv {i : Instr} (h : i.op = .inv) : performOf i = performInv i.path i.rd := by
  rw [performOf, h]

/-- With these operands, all the command writes is the canonical form of `x` in its destination register. -/
def WritesCanon (i : Instr) (c : Captured) (x : Int) : Prop :=
  ∀ s : State, performOf i c s = s.setF i.rd (canon i.path x)

section
variable {i j : Instr} {c d : Captured} {x y : Int}

theorem writesCanon_mul (h : i.op = .mul) (c : Captured) :
    WritesCanon i c (val i.path c.a * val i.path c.b) := fun s => by
  rw [performOf_mul h, performMul]

theorem writesCanon_sqr (h : i.op = .sqr) (c : Captured) :
    WritesCanon i c (val i.path c.a * val i.path c.a) := fun s => by
  rw [performOf_sqr h, performSqr]

theorem writesCanon_mul121666 (h : i.op = .mul121666) (c : Captured) :
    WritesCanon i c (121666 * val i.path c.a) := fun s => by
  rw [performOf_mul121666 h, performMul121666, Config.a24, Nat.cast_ofNat]

theorem writesCanon_inv (h : i.op = .inv) (c : Captured) :
    WritesCanon i c (powMod (residue (val i.path c.a)) 255 Config.invExponent : Nat) := fun s => by
  rw [performOf_inv h, performInv]

/-! Under LIMB64 the integer is a natural number (R32). -/

theorem writesCanon_mul64 (rd rs1 rs2 : RegIdx) (c : Captured) :
    WritesCanon (.mul64 rd rs1 rs2) c (val64 c.a * val64 c.b : Nat) := by
  rw [Nat.cast_mul]
  exact writesCanon_mul rfl c

theorem writesCanon_sqr64 (rd rs1 : RegIdx) (c : Captured) :
    WritesCanon (.sqr64 rd rs1) c (val64 c.a * val64 c.a : Nat) := by
  rw [Nat.cast_mul]
  exact writesCanon_sqr rfl c

theorem writesCanon_mul121666x64 (rd rs1 : RegIdx) (c : Captured) :
    WritesCanon (.mul121666x64 rd rs1) c (121666 * val64 c.a : Nat) := by
  rw [Nat.cast_mul]
  exact writesCanon_mul121666 rfl c

/-- Which integer of its class mod p it is does not matter (R34). -/
theorem WritesCanon.congr (h : WritesCanon i c x) (hxy : x ≡ y [ZMOD (Config.p : Int)]) : WritesCanon i c y :=
  fun s => by rw [h s, canon_congr _ hxy]

/-- The completion writes the register, ends BUSY and sets DONE (R111). -/
theorem WritesCanon.exec_completing (h : WritesCanon i c x) (s : State) :
    exec i (completing i c s) = .next ((completing i c s).completedF i.rd (canon i.path x)) := by
  rw [Machine.exec_completing, h, State.setF, retire, State.completedF]

theorem outcomeF_completedF (s : State) (n : RegIdx) (w : FReg) : outcomeF (.next (s.completedF n w)) n = some w :=
  congrArg some (getF_setF_same s n w)

theorem WritesCanon.outcomeF (h : WritesCanon i c x) (s : State) :
    outcomeF (exec i (completing i c s)) i.rd = some (canon i.path x) := by
  rw [h.exec_completing, outcomeF_completedF]

/-- The register of a LIMB32 result has the residue as its value and is reduced (R153). -/
theorem WritesCanon.reduced32 (h : WritesCanon i c x) (hi : i.path = .limb32) (s : State) :
    ∃ w, Machine.outcomeF (exec i (completing i c s)) i.rd = some w ∧ val32 w = x % (Config.p : Int) ∧ 0 ≤ val32 w ∧
      val32 w < Config.p ∧ w = radix32 (val32 w).toNat ∧ adm32 w = true ∧
      ∀ k : Fin 10, w[k].toNat ≤ if k.val % 2 = 0 then 0x3ffffff else 0x1ffffff := by
  have hv : val32 (radix32 (residue x)) = residue x := val32_radix32 _ (residue_lt_two_pow x)
  refine ⟨radix32 (residue x), ?_, ?_, ?_, ?_, ?_, adm32_radix32 _, radix32_getElem_le _⟩
  · rw [h.outcomeF, hi, canon, radix]
  · rw [hv, residue_cast]
  · rw [hv]
    exact Int.natCast_nonneg _
  · rw [hv]
    exact_mod_cast residue_lt x
  · rw [hv, Int.toNat_natCast]

/-- The register of a LIMB64 result has the residue as its value and is reduced (R153). -/
theorem WritesCanon.reduced64 {v : Nat} (h : WritesCanon i c v) (hi : i.path = .limb64) (s : State) :
    ∃ w, Machine.outcomeF (exec i (completing i c s)) i.rd = some w ∧ val64 w = v % Config.p ∧ val64 w < Config.p ∧
      w = radix64 (val64 w) ∧ adm64 w = true ∧ ∀ k : Fin 5, limb64 w k ≤ 0x7ffffffffffff := by
  have hlt : v % Config.p < Config.p := Nat.mod_lt _ p_pos
  have hv : val64 (radix64 (v % Config.p)) = v % Config.p := val64_radix64 _ (hlt.trans p_lt)
  refine ⟨radix64 (v % Config.p), ?_, hv, ?_, ?_, adm64_radix64 _, limb64_radix64_le _⟩
  · rw [h.outcomeF, hi, canon, residue_nat, radix]
  · rwa [hv]
  · rw [hv]

/-- Congruent integers leave the two limb forms of one residue (R154). -/
theorem WritesCanon.paths_agree (h : WritesCanon i c x) (h' : WritesCanon j d y) (hi : i.path = .limb32)
    (hj : j.path = .limb64) (hxy : x ≡ y [ZMOD (Config.p : Int)]) (s : State) :
    ∃ v, v < Config.p ∧ Machine.outcomeF (exec i (completing i c s)) i.rd = some (radix32 v) ∧
      Machine.outcomeF (exec j (completing j d s)) j.rd = some (radix64 v) := by
  refine ⟨residue x, residue_lt x, ?_, ?_⟩
  · rw [h.outcomeF, hi, canon, radix]
  · rw [h'.outcomeF, hj, canon, residue_congr hxy, radix]

end

/-! The product of two registers (R155). -/

/-- The register MUL leaves for these operands. -/
def product (path : Path) (a b : FReg) : FReg := canon path (val path a * val path b)

theorem outcomeF_mul {i : Instr} (h : i.op = .mul) (c : Captured) (s : State) :
    outcomeF (exec i (completing i c s)) i.rd = some (product i.path c.a c.b) := (writesCanon_mul h c).outcomeF s

theorem val_canon_modEq (path : Path) (x : Int) : val path (canon path x) ≡ x [ZMOD (Config.p : Int)] := by
  rw [val_canon]
  exact residue_modEq x

theorem val_product_modEq (path : Path) (a b : FReg) :
    val path (product path a b) ≡ val path a * val path b [ZMOD (Config.p : Int)] := val_canon_modEq path _

theorem product_comm (path : Path) (a b : FReg) : product path a b = product path b a := by
  rw [product, mul_comm, product]

theorem product_assoc (path : Path) (a b c : FReg) :
    product path (product path a b) c = product path a (product path b c) := by
  refine canon_congr path ?_
  calc val path (product path a b) * val path c
      ≡ val path a * val path b * val path c [ZMOD (Config.p : Int)] := (val_product_modEq path a b).mul_right _
    _ = val path a * (val path b * val path c) := mul_assoc ..
    _ ≡ val path a * val path (product path b c) [ZMOD (Config.p : Int)] := (val_product_modEq path b c).symm.mul_left _

theorem product_one (path : Path) (a : FReg) {b : FReg} (hb : val path b = 1) :
    product path a b = canon path (val path a) := by
  rw [product, hb, mul_one]

theorem val_product_add (path : Path) (a : FReg) {b c d : FReg}
    (h : val path d ≡ val path b + val path c [ZMOD (Config.p : Int)]) :
    val path (product path a d) ≡ val path (product path a b) + val path (product path a c) [ZMOD (Config.p : Int)] :=
  calc val path (product path a d)
      ≡ val path a * val path d [ZMOD (Config.p : Int)] := val_product_modEq path a d
    _ ≡ val path a * (val path b + val path c) [ZMOD (Config.p : Int)] := h.mul_left _
    _ = val path a * val path b + val path a * val path c := mul_add ..
    _ ≡ val path (product path a b) + val path (product path a c) [ZMOD (Config.p : Int)] :=
      (val_product_modEq path a b).symm.add (val_product_modEq path a c).symm

end Sys2Proof.Machine
end

section
/-! SUPPORT. The column sums of the informative datapath (R156): one shape for both paths, that what the columns say at
their positions is the product mod p, and how large a column is. -/

namespace Sys2Proof.Machine

/-- Partial product `i`, `j` in column `k` of `n`: whole where the positions meet, 19-fold where they meet past the last
column, and nothing elsewhere (R156). -/
def foldTerm (n i j k : Nat) (x : Int) : Int :=
  if i + j = k then x else if i + j = k + n then 19 * x else 0

/-- Column `k` of the partial products `x` (R156). -/
def foldedColumn {n : Nat} (x : Fin n → Fin n → Int) (k : Fin n) : Int :=
  ∑ i : Fin n, ∑ j : Fin n, foldTerm n i j k (x i j)

theorem column32_eq_foldedColumn (a b : FReg) (k : Fin 10) :
    column32 a b k = foldedColumn (fun i j => (oddPair i j : Int) * limb32 a i * limb32 b j) k := by
  simp only [column32, foldedColumn, foldTerm, mul_assoc]

theorem column64_eq_foldedColumn (a b : FReg) (k : Fin 5) :
    (column64 a b k : Int) = foldedColumn (fun i j => (limb64 a i : Int) * limb64 b j) k := by
  simp only [column64, foldedColumn, foldTerm, mul_assoc]
  push_cast
  rfl

/-- The factor of the fold (R156). -/
theorem two_pow_255_modEq : (2 ^ 255 : Int) ≡ 19 [ZMOD (Config.p : Int)] := by
  rw [p_cast]
  exact Int.modEq_iff_dvd.mpr ⟨-1, by norm_num⟩

section
variable {n : Nat}

/-- A partial product stands in the one column whose number is `i + j` mod `n`. -/
theorem foldTerm_eq_zero {i j k : Fin n} (h : k ≠ i + j) (x : Int) : foldTerm n i j k x = 0 := by
  have hk : i.val + j.val ≠ k.val := fun e => h (Fin.ext (by rw [Fin.val_add, e, Nat.mod_eq_of_lt k.isLt]))
  have hkn : i.val + j.val ≠ k.val + n := fun e =>
    h (Fin.ext (by rw [Fin.val_add, e, Nat.add_mod_right, Nat.mod_eq_of_lt k.isLt]))
  rw [foldTerm, if_neg hk, if_neg hkn]

theorem abs_foldTerm_le (i j k : Nat) {x B : Int} (h : |x| ≤ B) : |foldTerm n i j k x| ≤ 19 * B := by
  have h0 := abs_nonneg x
  unfold foldTerm
  split
  · omega
  split
  · rw [abs_mul, show |(19 : Int)| = 19 from rfl]
    omega
  · rw [abs_zero]
    omega

variable [NeZero n]

/-- Each of the `n` limbs of one operand meets one limb of the other in a column, so `n` partial products add up. -/
theorem abs_foldedColumn_le {x : Fin n → Fin n → Int} {B : Int} (h : ∀ i j, |x i j| ≤ B) (k : Fin n) :
    |foldedColumn x k| ≤ n * (19 * B) := by
  have hrow (i : Fin n) : |∑ j : Fin n, foldTerm n i j k (x i j)| ≤ 19 * B := by
    rw [Finset.sum_eq_single (k - i) (fun j _ hj => foldTerm_eq_zero (fun e => hj (by rw [e, add_sub_cancel_left])) _)
      (fun h => absurd (Finset.mem_univ _) h)]
    exact abs_foldTerm_le _ _ _ (h ..)
  calc |foldedColumn x k| ≤ ∑ i : Fin n, |∑ j : Fin n, foldTerm n i j k (x i j)| := Finset.abs_sum_le_sum_abs _ _
    _ ≤ ∑ _i : Fin n, 19 * B := Finset.sum_le_sum fun i _ => hrow i
    _ = n * (19 * B) := by rw [Finset.sum_const, Finset.card_univ, Fintype.card_fin, nsmul_eq_mul]

/-- Past the last column the position is 255 higher, and 2^255 is the factor 19 of the fold (R156). -/
theorem foldTerm_modEq {pos : Nat → Nat} (hpos : ∀ k, pos (k + n) = pos k + 255) (i j : Fin n) (x : Int) :
    foldTerm n i j (i + j : Fin n) x * 2 ^ pos (i + j : Fin n) ≡ x * 2 ^ pos (i + j) [ZMOD (Config.p : Int)] := by
  by_cases h : i.val + j.val < n
  · rw [foldTerm, Fin.val_add, Nat.mod_eq_of_lt h, if_pos rfl]
  · have hk : i.val + j.val = (i + j : Fin n).val + n := by
      rw [Fin.val_add, Nat.mod_eq_sub_mod (by omega), Nat.mod_eq_of_lt (by omega)]
      omega
    have hn := NeZero.pos n
    have hsplit : 19 * x * 2 ^ pos (i + j : Fin n) = x * 2 ^ pos (i + j : Fin n) * 19 := by ring
    rw [foldTerm, if_neg (by omega), if_pos hk, hk, hpos, pow_add, ← mul_assoc, hsplit]
    exact two_pow_255_modEq.symm.mul_left _

/-- The columns at their positions are the partial products at theirs, mod p (R156). -/
theorem sum_foldedColumn_modEq {pos : Nat → Nat} (hpos : ∀ k, pos (k + n) = pos k + 255) (x : Fin n → Fin n → Int) :
    ∑ k : Fin n, foldedColumn x k * 2 ^ pos k ≡ ∑ i : Fin n, ∑ j : Fin n, x i j * 2 ^ pos (i + j)
      [ZMOD (Config.p : Int)] := by
  have hswap : ∑ k : Fin n, foldedColumn x k * 2 ^ pos k =
      ∑ i : Fin n, ∑ j : Fin n, foldTerm n i j (i + j : Fin n) (x i j) * 2 ^ pos (i + j : Fin n) := by
    simp only [foldedColumn, Finset.sum_mul]
    rw [Finset.sum_comm]
    refine Finset.sum_congr rfl fun i _ => ?_
    rw [Finset.sum_comm]
    refine Finset.sum_congr rfl fun j _ => Finset.sum_eq_single _ (fun k _ hk => ?_)
      (fun h => absurd (Finset.mem_univ _) h)
    rw [foldTerm_eq_zero hk, zero_mul]
  rw [hswap]
  exact Int.ModEq.sum fun i _ => Int.ModEq.sum fun j _ => foldTerm_modEq hpos i j _

end

/-! The positions of the two layouts. -/

theorem pos32_add_ten (k : Nat) : pos32 (k + 10) = pos32 k + 255 := by
  unfold pos32
  omega

/-- Two odd limbs meet one bit above the position of their column, which is the factor 2 of R156. -/
theorem oddPair_mul_two_pow (i j : Nat) : oddPair i j * 2 ^ pos32 (i + j) = 2 ^ pos32 i * 2 ^ pos32 j := by
  rw [← pow_add, oddPair]
  split
  · rw [← pow_succ', show pos32 (i + j) + 1 = pos32 i + pos32 j by unfold pos32; omega]
  · rw [one_mul, show pos32 (i + j) = pos32 i + pos32 j by unfold pos32; omega]

/-! What the columns say at their positions, and their sizes. -/

theorem columnSum_limb32_modEq (a b : FReg) :
    columnSum .limb32 a b ≡ val32 a * val32 b [ZMOD (Config.p : Int)] :=
  calc columnSum .limb32 a b
      = ∑ k : Fin 10, foldedColumn (fun i j => (oddPair i j : Int) * limb32 a i * limb32 b j) k * 2 ^ pos32 k := by
        simp only [columnSum, column32_eq_foldedColumn, Nat.cast_pow, Nat.cast_ofNat]
    _ ≡ ∑ i : Fin 10, ∑ j : Fin 10, (oddPair i j : Int) * limb32 a i * limb32 b j * 2 ^ pos32 (i + j)
        [ZMOD (Config.p : Int)] := sum_foldedColumn_modEq pos32_add_ten _
    _ = val32 a * val32 b := by
        rw [val32, val32, Finset.sum_mul_sum]
        refine Finset.sum_congr rfl fun i _ => Finset.sum_congr rfl fun j _ => ?_
        have hpos : (oddPair i j : Int) * 2 ^ pos32 (i + j) = 2 ^ pos32 i * 2 ^ pos32 j := by
          exact_mod_cast oddPair_mul_two_pow i j
        push_cast
        linear_combination limb32 a i * limb32 b j * hpos

theorem columnSum_limb64_modEq (a b : FReg) :
    columnSum .limb64 a b ≡ (val64 a : Int) * val64 b [ZMOD (Config.p : Int)] :=
  calc columnSum .limb64 a b
      = ∑ k : Fin 5, foldedColumn (fun i j => (limb64 a i : Int) * limb64 b j) k * 2 ^ (51 * k.val) := by
        simp only [columnSum, ← column64_eq_foldedColumn]
        push_cast
        rfl
    _ ≡ ∑ i : Fin 5, ∑ j : Fin 5, (limb64 a i : Int) * limb64 b j * 2 ^ (51 * (i.val + j.val))
        [ZMOD (Config.p : Int)] := sum_foldedColumn_modEq (pos := fun k => 51 * k) (fun _ => mul_add ..) _
    _ = (val64 a : Int) * val64 b := by
        simp only [val64, Nat.cast_sum, Nat.cast_mul, Nat.cast_pow, Nat.cast_ofNat, Finset.sum_mul_sum, mul_add, pow_add,
          mul_mul_mul_comm]

theorem columnSum_modEq (path : Path) (a b : FReg) :
    columnSum path a b ≡ val path a * val path b [ZMOD (Config.p : Int)] := by
  cases path
  · exact columnSum_limb32_modEq a b
  · exact columnSum_limb64_modEq a b

/-- So the columns lead to the register MUL leaves (R156). -/
theorem writesCanon_columnSum {i : Instr} (h : i.op = .mul) (c : Captured) :
    WritesCanon i c (columnSum i.path c.a c.b) :=
  (writesCanon_mul h c).congr (columnSum_modEq ..).symm

/-- Ten partial products, each at most doubled and folded, of two limbs below 2^27 in size (R156). -/
theorem abs_column32_lt {a b : FReg} (ha : adm32 a = true) (hb : adm32 b = true) (k : Fin 10) :
    |column32 a b k| < 380 * 2 ^ 54 := by
  have hlimb {w : FReg} (hw : adm32 w = true) (i : Fin 10) : |limb32 w i| ≤ 2 ^ 27 - 1 := by
    have h := (adm32_iff w).mp hw i
    rw [abs_le]
    omega
  have hpair (i j : Fin 10) : |(oddPair i j : Int) * limb32 a i * limb32 b j| ≤ 2 * (2 ^ 27 - 1) * (2 ^ 27 - 1) := by
    have hodd : |(oddPair i j : Int)| ≤ 2 := by
      unfold oddPair
      split <;> decide
    rw [abs_mul, abs_mul]
    have := hlimb ha i
    have := hlimb hb j
    gcongr
  rw [column32_eq_foldedColumn]
  exact (abs_foldedColumn_le hpair k).trans_lt (by norm_num)

/-- Five partial products, each at most folded, of two limbs below 2^54 (R156). -/
theorem column64_lt {a b : FReg} (ha : adm64 a = true) (hb : adm64 b = true) (k : Fin 5) :
    column64 a b k < 95 * 2 ^ 108 := by
  have hlimb {w : FReg} (hw : adm64 w = true) (i : Fin 5) : |(limb64 w i : Int)| ≤ 2 ^ 54 - 1 := by
    have h := (adm64_iff w).mp hw i
    rw [Nat.abs_cast]
    omega
  have hpair (i j : Fin 5) : |(limb64 a i : Int) * limb64 b j| ≤ (2 ^ 54 - 1) * (2 ^ 54 - 1) := by
    rw [abs_mul]
    have := hlimb ha i
    have := hlimb hb j
    gcongr
  have h := abs_foldedColumn_le hpair k
  rw [← column64_eq_foldedColumn, Nat.abs_cast] at h
  have hlt : (column64 a b k : Int) < 95 * 2 ^ 108 := h.trans_lt (by norm_num)
  exact_mod_cast hlt

end Sys2Proof.Machine
end

section
/-! The statements about MUL, SQR and MUL121666: what each completion leaves, its form, the agreement of the two paths,
the algebra of the product, and the column sums. -/

namespace Sys2Proof.Machine

/-- Settles O41: each command leaves the limb form of the residue of one exact integer. -/
theorem productsAreCanonical : Obligations.ProductsAreCanonical := by
  intro s rd rs1 rs2 c
  simp only [List.forall_mem_cons, List.not_mem_nil, false_implies, implies_true, and_true]
  exact ⟨⟨(writesCanon_mul rfl c).reduced32 rfl s, (writesCanon_sqr rfl c).reduced32 rfl s,
      (writesCanon_mul121666 rfl c).reduced32 rfl s⟩,
    (writesCanon_mul64 rd rs1 rs2 c).reduced64 rfl s, (writesCanon_sqr64 rd rs1 c).reduced64 rfl s,
    (writesCanon_mul121666x64 rd rs1 c).reduced64 rfl s⟩

/-- Settles O46: congruent operands give congruent products, squares, multiples and powers. -/
theorem pathsAgreeOnArithmetic : Obligations.PathsAgreeOnArithmetic := by
  intro s rd rs1 rs2 c d ha hb
  simp only [List.forall_mem_cons, List.not_mem_nil, false_implies, implies_true, and_true]
  refine ⟨(writesCanon_mul rfl c).paths_agree (writesCanon_mul rfl d) rfl rfl ?_ s,
    (writesCanon_sqr rfl c).paths_agree (writesCanon_sqr rfl d) rfl rfl ?_ s,
    (writesCanon_mul121666 rfl c).paths_agree (writesCanon_mul121666 rfl d) rfl rfl ?_ s,
    (writesCanon_inv rfl c).paths_agree (writesCanon_inv rfl d) rfl rfl ?_ s⟩
  · exact ha.mul hb
  · exact ha.mul ha
  · exact ha.mul_left _
  · have hres : residue (val (Instr.inv32 rd rs1).path c.a) = residue (val (Instr.inv64 rd rs1).path d.a) :=
      residue_congr ha
    rw [hres]

/-- Settles O47: the register MUL leaves is the product of its operands' values as a field element. -/
theorem mulAlgebra : Obligations.MulAlgebra := by
  intro s rd rs1 rs2 mul m24 h
  obtain ⟨hmul, hm24, hpath, hrd, hrd'⟩ :
      mul.op = .mul ∧ m24.op = .mul121666 ∧ m24.path = mul.path ∧ mul.rd = rd ∧ m24.rd = rd := by
    rcases h with ⟨rfl, rfl⟩ | ⟨rfl, rfl⟩ <;> exact ⟨rfl, rfl, rfl, rfl, rfl⟩
  refine ⟨product mul.path, fun a b x => ?_, product_comm _, product_assoc _, fun a _ => product_one _ a,
    fun a _ _ _ => val_product_add _ a, fun a b c hb => ?_⟩
  · rw [← hrd, outcomeF_mul hmul]
  · rw [← hrd', (writesCanon_mul121666 hm24 _).outcomeF, hpath, product, hb, mul_comm]

/-- Settles O49: the column sums are congruent to the product, and a column is at most as many partial products as an
operand has limbs. -/
theorem columnSumsGiveTheProduct : Obligations.ColumnSumsGiveTheProduct := by
  refine ⟨fun s rd rs1 rs2 c => ⟨columnSum_limb32_modEq c.a c.b, columnSum_limb64_modEq c.a c.b,
    (writesCanon_columnSum rfl c).outcomeF s, (writesCanon_columnSum rfl c).outcomeF s⟩,
    fun a b k ha hb => ?_, fun a b k ha hb => ?_⟩
  · have h := abs_column32_lt ha hb k
    exact ⟨h, h.trans (by norm_num)⟩
  · have h := column64_lt ha hb k
    exact ⟨h, h.trans (by norm_num)⟩

/-- Settles O33, by the integer MUL leaves the canonical form of on each path. -/
theorem mulCompletes : Obligations.MulCompletes := fun s rd rs1 rs2 c => by
  rw [← canon_limb32, ← canon_limb64]
  exact ⟨(writesCanon_mul rfl c).exec_completing s, (writesCanon_mul64 rd rs1 rs2 c).exec_completing s⟩

/-- Settles O34, by the integer SQR leaves the canonical form of on each path. -/
theorem sqrCompletes : Obligations.SqrCompletes := fun s rd rs1 c => by
  rw [← canon_limb32, ← canon_limb64, sq, sq]
  exact ⟨(writesCanon_sqr rfl c).exec_completing s, (writesCanon_sqr64 rd rs1 c).exec_completing s⟩

/-- Settles O35, by the integer MUL121666 leaves the canonical form of on each path. -/
theorem mul121666Completes : Obligations.Mul121666Completes := fun s rd rs1 c => by
  rw [← canon_limb32, ← canon_limb64]
  exact ⟨(writesCanon_mul121666 rfl c).exec_completing s, (writesCanon_mul121666x64 rd rs1 c).exec_completing s⟩

end Sys2Proof.Machine
end

section
/-! SUPPORT. The power of INV: the register its completion leaves, and the product of that with the operand (R180 to
R182). -/

namespace Sys2Proof.Machine

/-- The canonical form of a natural number (R34). -/
theorem canon_nat (path : Path) (v : Nat) : canon path v = radix path (v % Config.p) := by
  rw [canon, residue_nat]

/-- The register INV leaves for this operand. -/
def inverse (path : Path) (a : FReg) : FReg := canon path (residue (val path a) ^ Config.invExponent : Nat)

/-- It is the limb form of the power itself, whatever chain computes it (R182). -/
theorem writesCanon_inv_pow {i : Instr} (h : i.op = .inv) (c : Captured) :
    WritesCanon i c (residue (val i.path c.a) ^ Config.invExponent : Nat) :=
  (writesCanon_inv h c).congr (Int.natCast_modEq_iff.mpr (powMod_inv_modEq _))

theorem outcomeF_inv {i : Instr} (h : i.op = .inv) (c : Captured) (s : State) :
    outcomeF (exec i (completing i c s)) i.rd = some (inverse i.path c.a) := (writesCanon_inv_pow h c).outcomeF s

theorem exec_completing_inv {i : Instr} (h : i.op = .inv) (c : Captured) (s : State) :
    exec i (completing i c s) = .next ((completing i c s).completedF i.rd
      (radix i.path (residue (val i.path c.a) ^ Config.invExponent % Config.p))) := by
  rw [(writesCanon_inv_pow h c).exec_completing, canon_nat]

theorem val_inverse_modEq (path : Path) (a : FReg) :
    val path (inverse path a) ≡ val path a ^ Config.invExponent [ZMOD (Config.p : Int)] :=
  calc val path (inverse path a)
      ≡ (residue (val path a) ^ Config.invExponent : Nat) [ZMOD (Config.p : Int)] := val_canon_modEq path _
    _ = (residue (val path a) : Int) ^ Config.invExponent := Nat.cast_pow ..
    _ ≡ val path a ^ Config.invExponent [ZMOD (Config.p : Int)] := (residue_modEq _).pow _

/-- The exponent of INV is `p - 2`, one below that of Fermat's little theorem (R180). -/
theorem p_sub_one : Config.p - 1 = Config.invExponent + 1 := by norm_num [Config.p, Config.invExponent]

/-- An integer times its power of INV is 1 mod p, by Fermat's little theorem, or 0 where p divides it (R181). -/
theorem mul_pow_invExponent_modEq (x : Int) :
    x * x ^ Config.invExponent ≡ (if (Config.p : Int) ∣ x then 0 else 1 : Nat) [ZMOD (Config.p : Int)] := by
  split
  next hdvd => exact Int.modEq_zero_iff_dvd.mpr (hdvd.mul_right _)
  next hndvd =>
    have hcop : IsCoprime x (Config.p : Int) :=
      ((Nat.prime_iff_prime_int.mp p_prime).coprime_iff_not_dvd.mpr hndvd).symm
    rw [← pow_succ', ← p_sub_one]
    exact Int.ModEq.pow_card_sub_one_eq_one p_prime hcop

/-- MUL of an operand and its INV leaves the limb form of 1 or of 0 (R181). -/
theorem product_inverse (path : Path) (a : FReg) :
    product path a (inverse path a) = radix path (if (Config.p : Int) ∣ val path a then 0 else 1) := by
  have hmod := ((val_inverse_modEq path a).mul_left (val path a)).trans (mul_pow_invExponent_modEq _)
  have hlt : (if (Config.p : Int) ∣ val path a then 0 else 1) < Config.p := by
    split
    · exact p_prime.pos
    · exact p_prime.one_lt
  rw [product, canon_congr path hmod, canon_nat, Nat.mod_eq_of_lt hlt]

end Sys2Proof.Machine
end

section
/-! The statements about INV: what its completion leaves, and that this is the operand's inverse. -/

namespace Sys2Proof.Machine

/-- Settles O36, by the power INV leaves the limb form of; under LIMB64 the residue is that of a natural number. -/
theorem invCompletes : Obligations.InvCompletes := fun s rd rs1 c => by
  rw [← residue_nat (val64 c.a)]
  exact ⟨exec_completing_inv rfl c s, exec_completing_inv rfl c s⟩

/-- Settles O48: the product of an operand and its power of INV is 1 by Fermat's little theorem, or 0. -/
theorem invTimesOperandIsOne : Obligations.InvTimesOperandIsOne := by
  intro s rd rs1 rs2 a inv mul h
  obtain ⟨hinv, hmul, hpath, hrd, hrd'⟩ :
      inv.op = .inv ∧ mul.op = .mul ∧ mul.path = inv.path ∧ inv.rd = rd ∧ mul.rd = rd := by
    rcases h with ⟨rfl, rfl⟩ | ⟨rfl, rfl⟩ <;> exact ⟨rfl, rfl, rfl, rfl, rfl⟩
  refine ⟨inverse inv.path a, ?_, ?_⟩
  · rw [← hrd, outcomeF_inv hinv]
  · rw [← hrd', outcomeF_mul hmul, hpath, product_inverse]

end Sys2Proof.Machine
end

section
/-! SUPPORT. Which effects of a step can change a register, and what the completions of NOP and WIPE leave (R190 to
R192). -/

namespace Sys2Proof.Machine

/-- Writing a word of one register leaves every other register alone (R77). -/
theorem getF_setFWord_of_ne {n m : RegIdx} (h : m ≠ n) (s : State) (k : Fin 10) (v : Word) :
    (s.setFWord n k v).getF m = s.getF m := by
  rw [State.setFWord, getF_setF, if_neg h]

/-- A command changes a register when it completes only if it is WIPE, or if the register is its destination (R30,
R191). -/
theorem writer_of_getF_performOf_ne {i : Instr} {n : RegIdx} {c : Captured} {s : State}
    (h : (performOf i c s).getF n ≠ s.getF n) : i = .wipe ∨ i.writesF = true ∧ i.rd = n := by
  by_contra hc
  push Not at hc
  obtain ⟨hw, hrd⟩ := hc
  exact h (getF_performOf_of_ne (fun ho => hw (op_eq_wipe ho)) (fun hf => (hrd hf).symm) c s)

/-- A register changes by a completion that writes it, an idle host write to one of its words, or a reset (R78, R111,
R192). -/
theorem Effect.getF_changed {s t : State} {n : RegIdx} (h : Effect s t) (hne : t.getF n ≠ s.getF n) :
    (s.nextIsEngine = true ∧ ∃ r, s.inflight = some r ∧ t.inflight = none ∧
      (r.cmd = .wipe ∨ r.cmd.writesF = true ∧ r.cmd.rd = n)) ∨
      (s.inflight = none ∧ ∃ k v rest, s.schedule = .access (.write (fwOffset n k) .word v) :: rest) ∨
      s.nextIsReset = true := by
  cases h with
  | completed hr hn r q f b hi hf hb ht =>
    have hget : t.getF n = (performOf r.cmd r.ops { s with schedule := q, turn := .engine }).getF n :=
      getF_congr ((congrArg State.f ht).trans hf) n
    exact .inl ⟨hn, r, hi, congrArg State.inflight ht, writer_of_getF_performOf_ne (hget ▸ hne)⟩
  | reg hr hi m k v rest hs ht =>
    have hm : n = m := by
      by_contra hm
      exact hne (by rw [ht, getF_setFWord_of_ne hm, getF_answered])
    exact .inr (.inl ⟨hi, k, v, rest, hm ▸ hs⟩)
  | reset hn => exact .inr (.inr hn)
  | raised _ e _ _ rest _ ht => exact absurd (getF_congr ((congrArg State.f ht).trans (raiseErr_f ..)) n) hne
  | quiet _ ht | assertReset _ _ ht | answered _ _ _ _ _ ht | ctrl _ _ _ _ _ ht | status _ _ _ _ ht
  | bytes _ _ _ _ _ _ _ _ ht | accepted _ _ _ _ _ _ _ _ _ _ _ ht =>
    exact absurd (getF_congr (congrArg State.f ht) n) hne

/-- The completion of NOP retires it and writes nothing (R190). -/
theorem exec_completing_nop (c : Captured) (s : State) :
    exec .nop (completing .nop c s) = .next { s with turn := .engine, inflight := none, done := true } := by
  rw [exec_completing]
  rfl

/-- The completion of WIPE leaves the registers and BYTES of the reset state (R46, R191). -/
theorem exec_completing_wipe (c : Captured) (s : State) :
    exec .wipe (completing .wipe c s) = .next { s with
      turn := .engine, inflight := none, done := true, f := State.reset.f, bytes := State.reset.bytes } := by
  rw [exec_completing]
  rfl

end Sys2Proof.Machine
end

section
/-! The statements about NOP, WIPE and what may change a register. -/

namespace Sys2Proof.Machine

/-- Settles O50, by the effects that can change a register. -/
theorem registersChangeOnlyAsAllowed : Obligations.RegistersChangeOnlyAsAllowed :=
  fun _ _ _ h hne => (step_effect h).getF_changed hne

/-- Settles O39: NOP only retires, and WIPE leaves the registers and BYTES of the reset state, which are 0. -/
theorem nopAndWipeComplete : Obligations.NopAndWipeComplete := by
  intro s c
  obtain ⟨hreg, hbytes, -⟩ := reset_isCleared s.rst s.turn s.resp s.schedule
  exact ⟨exec_completing_nop c s, _, exec_completing_wipe c s, rfl, hreg, hbytes⟩

end Sys2Proof.Machine
end

section
/-! SUPPORT. The part of the state an observer without the operand values sees: what each operation leaves of it is told
by what was there before, and by whether the operands of a command being issued are admissible (R212, R250). -/

namespace Sys2Proof.Machine

/-! What each operation does to the control view. -/

theorem busy_eq_control (s : State) : s.busy = s.control.cmd.isSome := by
  rw [State.busy, State.control, Option.isSome_map]

@[simp] theorem control_answered (s : State) (rest : List Event) (r : BusResp) :
    (s.answered rest r).control = { s.control with turn := .host, schedule := rest } := rfl

@[simp] theorem control_setBytes (s : State) (b : ByteString) : (s.setBytes b).control = s.control := rfl

@[simp] theorem control_setFWord (s : State) (n : RegIdx) (k : Fin 10) (v : Word) :
    (s.setFWord n k v).control = s.control := rfl

@[simp] theorem control_raiseErr (e : Err) (s : State) :
    (raiseErr e s).control =
      { s.control with err := true, errCode := if s.control.err then s.control.errCode else e.code } := by
  rw [raiseErr_eq]
  rfl

@[simp] theorem control_writeStatus (v : Word) (s : State) :
    (writeStatus v s).control =
      { s.control with
        done := s.control.done && !v.getLsbD 1
        err := s.control.err && !v.getLsbD 2
        errCode := if v.getLsbD 2 then 0#4 else s.control.errCode } := rfl

@[simp] theorem control_softReset (s : State) :
    (softReset s).control =
      { State.reset.control with rst := s.control.rst, turn := s.control.turn, schedule := s.control.schedule } := rfl

@[simp] theorem control_writeCtrl (v : Word) (s : State) :
    (writeCtrl v s).control =
      if v.getLsbD 0 then (softReset s).control else { s.control with irqEn := v.getLsbD 1 } := by
  unfold writeCtrl
  split <;> rfl

@[simp] theorem control_resetInput (level : Bool) (s : State) :
    (resetInput level s).control =
      if level then { s.control with rst := true, cmd := none }
      else if s.control.rst then { (softReset s).control with rst := false } else s.control := by
  rcases resetInput_cases level s with ⟨rfl, h⟩ | ⟨rfl, hr, h⟩ | ⟨rfl, hr, h⟩
  · rw [h]
    rfl
  · rw [h, if_neg Bool.false_ne_true]
    exact (if_neg (Bool.eq_false_iff.1 hr)).symm
  · rw [h, if_neg Bool.false_ne_true]
    exact (if_pos hr).symm

@[simp] theorem control_accept (i : Instr) (c : Captured) (s : State) :
    (accept i c s).control = { s.control with lastCmd := encode i, cmd := some i } := rfl

@[simp] theorem control_retire (s : State) : (retire s).control = { s.control with cmd := none, done := true } := rfl

@[simp] theorem control_performOf (i : Instr) (c : Captured) (s : State) :
    (performOf i c s).control = s.control := by
  rw [performOf_control]
  rfl

/-- Issue by the checks of R204 in their order, the operands' test said by `operandsAdmissible`. -/
theorem issue_eq (i : Instr) (s : State) :
    issue i (captureOf i) s =
      if s.busy then raiseErr .cmdWhileBusy s
      else if operandsAdmissible i s then accept i (operandsOf i s) s else raiseErr .operandRange s := by
  cases hb : s.busy with
  | true => exact issue_busy hb
  | false =>
    cases ha : operandsAdmissible i s with
    | true => exact issue_ok hb (captureOf_eq ha)
    | false => exact issue_error hb (captureOf_inadmissible ha)

/-! Two states with one control view. -/

section
variable {s₁ s₂ : State} (h : s₁.control = s₂.control)
include h

theorem busy_congr : s₁.busy = s₂.busy := by
  rw [busy_eq_control, busy_eq_control, h]

theorem control_answered_congr (rest : List Event) (r₁ r₂ : BusResp) :
    (s₁.answered rest r₁).control = (s₂.answered rest r₂).control := by
  rw [control_answered, control_answered, h]

theorem control_writeOperand_congr {store₁ store₂ : State → State} (h₁ : (store₁ s₁).control = s₁.control)
    (h₂ : (store₂ s₂).control = s₂.control) :
    (writeOperand store₁ s₁).control = (writeOperand store₂ s₂).control := by
  unfold writeOperand
  rw [busy_congr h]
  split
  · simp only [control_raiseErr, h]
  · rw [h₁, h₂, h]

theorem control_memWrite_congr (loc : Loc) (v : Word) : (memWrite loc v s₁).control = (memWrite loc v s₂).control := by
  cases loc with
  | id | cmd | reserved => exact h
  | ctrl => simp only [memWrite_ctrl, control_writeCtrl, control_softReset, h]
  | status => simp only [memWrite_status, control_writeStatus, h]
  | bw m => exact control_writeOperand_congr h (control_setBytes ..) (control_setBytes ..)
  | fw n k => exact control_writeOperand_congr h (control_setFWord ..) (control_setFWord ..)

theorem control_issueIllegal_congr : (issueIllegal s₁).control = (issueIllegal s₂).control := by
  simp only [issueIllegal_eq, busy_congr h, control_raiseErr, h]

/-- At issue the operands decide whether OPERAND_RANGE is raised, and nothing else (R204, R212). -/
theorem control_issue_congr {i : Instr} (ha : operandsAdmissible i s₁ = operandsAdmissible i s₂) :
    (issue i (captureOf i) s₁).control = (issue i (captureOf i) s₂).control := by
  rw [issue_eq, issue_eq, busy_congr h, ha]
  split
  · simp only [control_raiseErr, h]
  · split
    · simp only [control_accept, h]
    · simp only [control_raiseErr, h]

end

/-! The step. -/

/-- The control view an outcome answers. -/
def outcomeControl (o : Host.Outcome State Fault Refusal) : Option ControlView :=
  match o with
  | .next t => some t.control
  | .fault _ | .refused _ => none

theorem exists_next_of_outcomeControl {o : Host.Outcome State Fault Refusal} {v : ControlView}
    (h : outcomeControl o = some v) : ∃ t, o = .next t ∧ t.control = v := by
  cases o with
  | next t => exact ⟨t, rfl, Option.some.inj h⟩
  | fault r | refused r => cases h

/-- The engine takes its turn when it is the next event or no event is left (R112). -/
theorem nextAction_engine {s : State} {q : List Event} (hs : s.schedule = .complete :: q ∨ s.schedule = [] ∧ q = []) :
    nextAction s = engineTurn { s with schedule := q } := by
  rcases hs with hs | ⟨hs, rfl⟩
  · rw [nextAction, hs]
  · have e : s = { s with schedule := [] } := by rw [← hs]
    rw [nextAction, hs, ← e]

/-- With nothing to complete, or under reset, the engine's turn does nothing (R111, R240). -/
theorem step_engine_quiet {s : State} {q : List Event} (h : s.busy = false ∨ s.rst = true)
    (hs : s.schedule = .complete :: q ∨ s.schedule = [] ∧ q = []) : step s = .next { s with schedule := q } := by
  have he : engineTurn { s with schedule := q } = .go { s with schedule := q } := by
    rcases h with hb | hr
    · exact engineTurn_idle ((not_busy_iff s).1 hb)
    · unfold engineTurn
      split
      · exact if_pos hr
      · rfl
  rw [step, nextAction_engine hs, he]

/-- The engine's turn with a command in flight completes it (R111). -/
theorem step_engine_completes {s : State} {r : InFlight} {q : List Event} (hr : s.rst = false)
    (hi : s.inflight = some r) (hs : s.schedule = .complete :: q ∨ s.schedule = [] ∧ q = []) :
    step s = .next (retire (performOf r.cmd r.ops { s with schedule := q, turn := .engine })) := by
  rw [step, nextAction_engine hs, engineTurn_inflight (s := { s with schedule := q }) hr hi]
  exact exec_inflight (s := { s with schedule := q }) hi

theorem step_rst {s : State} {level : Bool} {rest : List Event} (hs : s.schedule = .rst level :: rest) :
    step s = .next (resetInput level { s with schedule := rest }) := by
  rw [step, nextAction, hs]

/-- While `rst` is asserted no access is answered (R240). -/
theorem step_access_rst {s : State} {a : Access} {rest : List Event} (hr : s.rst = true)
    (hs : s.schedule = .access a :: rest) : step s = .refused .accessDuringReset := by
  simp only [step, nextAction, hs, hr, if_true]

theorem step_access_illegal {s : State} {a : Access} {rest : List Event} (hr : s.rst = false)
    (hs : s.schedule = .access a :: rest) (ha : a.wellFormed = false) : step s = .fault (.busError 0#32) := by
  rw [step, nextAction_access hr hs, hostAccess_illegal ha]

/-- A legal access is 32 bits wide and at a multiple of 4 (R73). -/
theorem wellFormed_iff {a : Access} : a.wellFormed = true ↔ a.width = .word ∧ a.off.toNat % 4 = 0 := by
  rw [Access.wellFormed, Bool.and_eq_true, Access.wordWide, Access.aligned, beq_iff_eq, beq_iff_eq]

section
variable {s₁ s₂ : State} (h : s₁.control = s₂.control)
include h

/-- A CMD write tells two such states apart by whether its command's operands are admissible, if at all. -/
theorem outcomeControl_step_cmd_congr {c : Word} {rest : List Event} (hr : s₁.rst = false)
    (hs : s₁.schedule = cmdWriteEvent c :: rest)
    (ha : ∀ i, decode c = .ok i → operandsAdmissible i s₁ = operandsAdmissible i s₂) :
    outcomeControl (step s₁) = outcomeControl (step s₂) := by
  have hr₂ : s₂.rst = false := (congrArg ControlView.rst h).symm.trans hr
  have hs₂ : s₂.schedule = cmdWriteEvent c :: rest := (congrArg ControlView.schedule h).symm.trans hs
  have hans := control_answered_congr h rest .ack .ack
  cases hd : decode c with
  | error e =>
    rw [step_cmd_illegal hr hs hd, step_cmd_illegal hr₂ hs₂ hd]
    exact congrArg some (control_issueIllegal_congr hans)
  | ok i =>
    rw [step_cmd_legal hr hs hd, step_cmd_legal hr₂ hs₂ hd, exec_host rfl, exec_host rfl]
    refine congrArg some (control_issue_congr hans ?_)
    rw [operandsAdmissible_answered, operandsAdmissible_answered, ha i hd]

/-- No other access tells them apart: what a read returns is read data alone, and BUSY decides which writes are taken. -/
theorem outcomeControl_step_access_congr {a : Access} {rest : List Event} (hs : s₁.schedule = .access a :: rest)
    (ha : ∀ c i, a = .write 0x00C#10 .word c → decode c = .ok i →
      operandsAdmissible i s₁ = operandsAdmissible i s₂) :
    outcomeControl (step s₁) = outcomeControl (step s₂) := by
  have hr' : s₁.rst = s₂.rst := congrArg ControlView.rst h
  have hs₂ : s₂.schedule = .access a :: rest := (congrArg ControlView.schedule h).symm.trans hs
  cases hr : s₁.rst with
  | true => rw [step_access_rst hr hs, step_access_rst (hr' ▸ hr) hs₂]
  | false =>
    have hr₂ : s₂.rst = false := hr'.symm.trans hr
    cases hw : a.wellFormed with
    | false => rw [step_access_illegal hr hs hw, step_access_illegal hr₂ hs₂ hw]
    | true =>
      obtain ⟨hword, hoff⟩ := wellFormed_iff.1 hw
      cases a with
      | read off width =>
        obtain rfl : width = .word := hword
        rw [step_read hr hs hoff, step_read hr₂ hs₂ hoff]
        exact congrArg some (control_answered_congr h ..)
      | write off width v =>
        obtain rfl : width = .word := hword
        by_cases hc : locate off = .cmd
        · obtain rfl := eq_cmd_offset hoff hc
          exact outcomeControl_step_cmd_congr h hr hs fun i => ha v i rfl
        · rw [step_write hr hs hoff hc, step_write hr₂ hs₂ hoff hc]
          exact congrArg some (control_memWrite_congr (control_answered_congr h ..) ..)

/-- The engine's turn looks at no operand: whether there is a command to complete is told by BUSY (R111). -/
theorem outcomeControl_step_engine_congr {q : List Event}
    (hs : s₁.schedule = .complete :: q ∨ s₁.schedule = [] ∧ q = []) :
    outcomeControl (step s₁) = outcomeControl (step s₂) := by
  have hr : s₁.rst = s₂.rst := congrArg ControlView.rst h
  have hs₂ : s₂.schedule = .complete :: q ∨ s₂.schedule = [] ∧ q = [] := by
    rwa [show s₂.schedule = s₁.schedule from (congrArg ControlView.schedule h).symm]
  by_cases hq : s₁.busy = false ∨ s₁.rst = true
  · rw [step_engine_quiet hq hs, step_engine_quiet (by rwa [← busy_congr h, ← hr]) hs₂]
    exact congrArg (fun v : ControlView => some { v with schedule := q }) h
  · rw [not_or, Bool.not_eq_false, Bool.not_eq_true] at hq
    obtain ⟨hb, hr₁⟩ := hq
    obtain ⟨r₁, hi₁⟩ := (busy_iff s₁).1 hb
    obtain ⟨r₂, hi₂⟩ := (busy_iff s₂).1 ((busy_congr h).symm.trans hb)
    rw [step_engine_completes hr₁ hi₁ hs, step_engine_completes (hr.symm.trans hr₁) hi₂ hs₂]
    simp only [outcomeControl, control_retire, control_performOf]
    exact congrArg
      (fun v : ControlView => some { v with cmd := none, done := true, turn := .engine, schedule := q }) h

/-- A step does the same to the control view of two states with one control view, a case per event. -/
theorem outcomeControl_step_congr
    (ha : ∀ c i rest, s₁.schedule = cmdWriteEvent c :: rest → decode c = .ok i →
      operandsAdmissible i s₁ = operandsAdmissible i s₂) :
    outcomeControl (step s₁) = outcomeControl (step s₂) := by
  cases hs : s₁.schedule with
  | nil => exact outcomeControl_step_engine_congr h (.inr ⟨hs, rfl⟩)
  | cons e rest =>
    cases e with
    | complete => exact outcomeControl_step_engine_congr h (.inl hs)
    | access a =>
      refine outcomeControl_step_access_congr h hs fun c i hac hd => ha c i rest ?_ hd
      rw [hs, hac]
      rfl
    | rst level =>
      have hq : State.control { s₁ with schedule := rest } = State.control { s₂ with schedule := rest } :=
        congrArg (fun v : ControlView => { v with schedule := rest }) h
      rw [step_rst hs, step_rst ((congrArg ControlView.schedule h).symm.trans hs)]
      simp only [outcomeControl, control_resetInput, control_softReset, hq]

end

end Sys2Proof.Machine
end

section
/-! The statement about what operand values may steer. -/

namespace Sys2Proof.Machine

/-- Settles O55: what a step does to the control view is told by the control view and, at an issue, by whether the
operands are admissible. -/
theorem controlIgnoresOperandValues : Obligations.ControlIgnoresOperandValues := by
  intro s₁ s₂ t₁ h ha ht
  have heq := outcomeControl_step_congr h ha
  rw [ht] at heq
  obtain ⟨t₂, ht₂, hc⟩ := exists_next_of_outcomeControl heq.symm
  exact ⟨t₂, ht₂, hc.symm⟩

end Sys2Proof.Machine
end

section
/-! SUPPORT. Which steps raise, keep and clear ERR, the write a step that answers a next state took, and the state a reset
leaves (R200 to R207, R240, R241). -/

namespace Sys2Proof.Machine

/-! What an effect of a step does to ERR. -/

/-- ERR rises only by a host write that is refused and does nothing else (R202, R207). -/
theorem Effect.err_raised {s t : State} (h : Effect s t) (hs : s.err = false) (ht : t.err = true) :
    ∃ (e : Err) (off : Offset) (v : Word) (rest : List Event),
      s.schedule = .access (.write off .word v) :: rest ∧ t = raiseErr e (s.answered rest .ack) := by
  have hne : t.err ≠ s.err := by rw [hs, ht]; exact Bool.true_eq_false.mp
  cases h with
  | raised _ e off v rest hq ht => exact ⟨e, off, v, rest, hq, ht⟩
  | status _ _ _ _ heq => exact absurd (by rw [heq, writeStatus_err, answered_err, hs, Bool.false_and]) hne
  | reset _ _ _ _ _ _ heq => exact absurd ((congrArg State.err heq).trans hs.symm) hne
  | quiet _ heq | assertReset _ _ heq | answered _ _ _ _ _ heq | ctrl _ _ _ _ _ heq | bytes _ _ _ _ _ _ _ _ heq
  | reg _ _ _ _ _ _ _ heq | accepted _ _ _ _ _ _ _ _ _ _ _ heq | completed _ _ _ _ _ _ _ _ _ heq =>
    exact absurd (congrArg State.err heq) hne

/-- Once ERR is 1, ERR and ERRCODE stay but for a STATUS write with bit 2 = 1 and a reset, which clear both (R40, R202). -/
theorem Effect.err_kept {s t : State} (h : Effect s t) (hs : s.err = true) :
    (t.err = true ∧ t.errCode = s.errCode) ∨
      (t.err = false ∧ t.errCode = 0#4 ∧
        ((∃ v rest, s.schedule = .access (.write 0x008#10 .word v) :: rest ∧ v.getLsbD 2 = true) ∨
          s.nextIsReset = true)) := by
  cases h with
  | raised _ e _ _ rest _ ht =>
    subst ht
    exact .inl ⟨raiseErr_err .., by rw [raiseErr_errCode, answered_err, hs, if_pos rfl, answered_errCode]⟩
  | status _ v rest hq ht =>
    subst ht
    rw [writeStatus_err, writeStatus_errCode, answered_err, answered_errCode, hs]
    cases hv : v.getLsbD 2 with
    | true => exact .inr ⟨rfl, rfl, .inl ⟨v, rest, hq, hv⟩⟩
    | false => exact .inl ⟨rfl, rfl⟩
  | reset hn _ _ _ _ _ ht => exact .inr ⟨congrArg State.err ht, congrArg State.errCode ht, .inr hn⟩
  | quiet _ ht | assertReset _ _ ht | answered _ _ _ _ _ ht | ctrl _ _ _ _ _ ht | bytes _ _ _ _ _ _ _ _ ht
  | reg _ _ _ _ _ _ _ ht | accepted _ _ _ _ _ _ _ _ _ _ _ ht | completed _ _ _ _ _ _ _ _ _ ht =>
    subst ht
    exact .inl ⟨hs, rfl⟩

/-! A step that answers a next state, read backwards from its event. -/

/-- Only a legal access with `rst` released is answered (R73, R240). -/
theorem access_legal_of_step {s t : State} {a : Access} {rest : List Event} (hs : s.schedule = .access a :: rest)
    (h : step s = .next t) : s.rst = false ∧ a.width = .word ∧ a.off.toNat % 4 = 0 := by
  cases hr : s.rst with
  | true => rw [step_access_rst hr hs] at h; cases h
  | false =>
    cases hw : a.wellFormed with
    | true => exact ⟨rfl, wellFormed_iff.1 hw⟩
    | false => rw [step_access_illegal hr hs hw] at h; cases h

/-- What a write outside CMD left (R85). -/
theorem eq_memWrite_of_step {s t : State} {off : Offset} {v : Word} {rest : List Event}
    (hs : s.schedule = .access (.write off .word v) :: rest) (hoff : off ≠ 0x00C#10) (h : step s = .next t) :
    t = memWrite (locate off) v (s.answered rest .ack) := by
  obtain ⟨hr, -, ha⟩ := access_legal_of_step hs h
  rw [step_write hr hs ha fun hc => hoff (eq_cmd_offset ha hc)] at h
  injection h with h
  exact h.symm

/-- Outside CMD the one error a write can raise is WRITE_WHILE_BUSY (R200). -/
theorem memWrite_err_raised {loc : Loc} {v : Word} {s : State} (hs : s.err = false)
    (h : (memWrite loc v s).err = true) : memWrite loc v s = raiseErr .writeWhileBusy s := by
  have hne : (memWrite loc v s).err ≠ false := by rw [h]; exact Bool.true_eq_false.mp
  rcases memWrite_cases loc v s with e | ⟨-, -, e⟩ | ⟨-, -, e⟩ | ⟨-, e⟩ | ⟨-, e⟩ | ⟨-, m, -, e⟩ | ⟨-, n, k, -, e⟩
  · exact absurd (by rw [e, hs]) hne
  · exact absurd (by rw [e]; rfl) hne
  · exact absurd (by rw [e, hs]) hne
  · exact absurd (by rw [e, writeStatus_err, hs, Bool.false_and]) hne
  · exact e
  · exact absurd (by rw [e, setBytes_err, hs]) hne
  · exact absurd (by rw [e, setFWord_err, hs]) hne

/-- A soft reset is a CTRL write with bit 0 = 1 (R39). -/
theorem eq_ctrl_write_of_isSoftReset {e : Event} (h : e.isSoftReset = true) :
    ∃ v : Word, e = .access (.write 0x004#10 .word v) ∧ v.getLsbD 0 = true := by
  cases e with
  | complete | rst _ => cases h
  | access a =>
    cases a with
    | read _ _ => cases h
    | write off width v =>
      simp only [Event.isSoftReset, Bool.and_eq_true, beq_iff_eq] at h
      obtain ⟨⟨rfl, rfl⟩, hv⟩ := h
      exact ⟨v, rfl, hv⟩

theorem State.isCleared.irqEn {s : State} (h : s.isCleared) : s.irqEn = false := by
  obtain ⟨-, -, hen, -⟩ := h
  exact hen

/-- A reset leaves the architectural state cleared (R46, R240, R241). -/
theorem isCleared_of_nextIsReset {s t : State} (hn : s.nextIsReset = true) (h : step s = .next t) : t.isCleared := by
  cases hs : s.schedule with
  | nil => rw [State.nextIsReset, hs] at hn; cases hn
  | cons e rest =>
    simp only [State.nextIsReset, hs, Bool.or_eq_true, Bool.and_eq_true, beq_iff_eq] at hn
    rcases hn with he | ⟨rfl, hr⟩
    · obtain ⟨v, rfl, hv⟩ := eq_ctrl_write_of_isSoftReset he
      rw [step_softReset (access_legal_of_step hs h).1 hv hs] at h
      injection h with h
      exact h ▸ reset_isCleared ..
    · rw [step_release hr hs] at h
      injection h with h
      exact h ▸ reset_isCleared ..

/-! The operands that are tested (R204). -/

/-- An inadmissible F[rs1] makes the operands of every command that reads it inadmissible (R35, R109). -/
theorem operandsAdmissible_of_rs1 {i : Instr} {s : State}
    (hop : i.op = .sqr ∨ i.op = .mul121666 ∨ i.op = .inv ∨ i.op = .tobytes ∨ i.op = .mul)
    (h : adm i.path (s.getF i.rs1) = false) : operandsAdmissible i s = false := by
  rcases hop with ho | ho | ho | ho | ho <;> simp only [operandsAdmissible, ho, h, Bool.false_and]

theorem operandsAdmissible_of_rs2 {i : Instr} {s : State} (hop : i.op = .mul)
    (h : adm i.path (s.getF i.rs2) = false) : operandsAdmissible i s = false := by
  simp only [operandsAdmissible, hop, h, Bool.and_false]

/-- A command with an inadmissible operand written to CMD of an idle block raises OPERAND_RANGE and nothing else
(R204). -/
theorem step_inadmissible {s : State} {i : Instr} {rest : List Event} (hr : s.rst = false) (hi : s.inflight = none)
    (hs : s.schedule = cmdWriteEvent (encode i) :: rest) (ha : operandsAdmissible i s = false) :
    step s = .next ((s.answered rest .ack).withError 3#4) := by
  rw [step_cmd_legal hr hs (decode_encode i), exec_host rfl, issue_error ((not_busy_iff (s.answered rest .ack)).2 hi)
    (captureOf_inadmissible ((operandsAdmissible_answered ..).trans ha)), raiseErr_eq_withError]
  rfl

end Sys2Proof.Machine
end

section
/-! The statements about errors and the interrupt. -/

namespace Sys2Proof.Machine

/-- Settles O20: each rejection at its place in the order, and the one error a write outside CMD can raise. -/
theorem issueChecksInOrder : Obligations.IssueChecksInOrder := by
  refine ⟨fun s c rest hr hs => ⟨fun hi => ?_, fun hi hc => illegalWordsAreRejected.2 s c rest hr hi hc hs,
    fun i hi hc hop h1 => ?_, fun i hi hc hop _ h2 => ?_⟩, fun s t v off rest he hs hlo _ h ht => ?_⟩
  · rw [step_cmd_busy hr hi hs, raiseErr_eq_withError]
    rfl
  · exact step_inadmissible hr hi (hc ▸ hs) (operandsAdmissible_of_rs1 hop h1)
  · exact step_inadmissible hr hi (hc ▸ hs) (operandsAdmissible_of_rs2 hop h2)
  · have hoff : off ≠ 0x00C#10 := by rintro rfl; exact absurd hlo (by decide)
    obtain rfl := eq_memWrite_of_step hs hoff h
    rw [memWrite_err_raised (s := s.answered rest .ack) he ht, raiseErr_errCode, answered_err, he]
    rfl

/-- Settles O21: only a refused host write raises an error, and it reports the error's code. -/
theorem errorsArePrecise : Obligations.ErrorsArePrecise := by
  intro s t hs h ht
  obtain ⟨e, off, v, rest, hq, rfl⟩ := (step_effect h).err_raised hs ht
  have hc : (raiseErr e (s.answered rest .ack)).errCode = e.code := by
    rw [raiseErr_errCode, answered_err, hs]
    rfl
  obtain ⟨hne, hle⟩ := e.code_range
  refine ⟨⟨off, v, rest, hq, ?_⟩, ?_, hc ▸ hle⟩
  · rw [hc, raiseErr_eq, answered_err, hs]
    rfl
  · rw [hc]
    exact Nat.one_le_iff_ne_zero.2 fun h0 => hne (BitVec.eq_of_toNat_eq h0)

/-- Settles O22, by what each effect of a step does to ERR and ERRCODE. -/
theorem firstErrorCodeSticks : Obligations.FirstErrorCodeSticks := fun _ _ hs h => (step_effect h).err_kept hs

/-- Settles O23: the output is its definition, and each way of taking it away leaves IRQ_EN = 0, or DONE = ERR = 0. -/
theorem irqFollowsDoneAndErr : Obligations.IrqFollowsDoneAndErr := by
  refine ⟨fun _ => rfl, fun s line => ?_, fun s t v rest hs h1 h2 h => ?_, fun s t v rest hs h0 h1 h => ?_,
    fun s t hn h => ?_⟩
  · rw [State.irqOn, Bool.and_eq_true, beq_iff_eq]
  · obtain rfl := eq_memWrite_of_step hs (by decide) h
    rw [locate_status, memWrite_status, State.irq, writeStatus_done, writeStatus_err, h1, h2]
    simp
  · obtain rfl := eq_memWrite_of_step hs (by decide) h
    rw [locate_ctrl, memWrite_ctrl, writeCtrl, h0, h1]
    exact ⟨Bool.false_and _, rfl, rfl⟩
  · have hc := isCleared_of_nextIsReset hn h
    exact ⟨hc.irq, hc.irqEn⟩

end Sys2Proof.Machine
end

section
/-! The statements about the two resets. -/

namespace Sys2Proof.Machine

/-- Asserting `rst` abandons the command in flight and touches no register (R240). -/
theorem step_assert {s : State} {rest : List Event} (hs : s.schedule = .rst true :: rest) :
    step s = .next { s with rst := true, inflight := none, schedule := rest } := by
  rw [step_rst hs, resetInput, if_pos rfl]

/-- Settles O2: the step of the CTRL write does not look at the command in flight (R241). -/
theorem softResetLeavesResetState : Obligations.SoftResetLeavesResetState := fun _ _ _ hr hv hs =>
  step_softReset hr hv hs

/-- Settles O3: the assertion, an access and an engine turn while it lasts, and the release, each by its step. -/
theorem hardResetAbandonsAndClears : Obligations.HardResetAbandonsAndClears := by
  refine ⟨fun s rest hs => ?asserted, fun s a rest hr hs => ?access, fun s rest hr hs => ?engine,
    fun s rest hr hs => ?released⟩
  case asserted => exact ⟨_, step_assert hs, rfl, rfl, rfl, rfl, rfl, rfl⟩
  case access => exact step_access_rst hr hs
  case engine => exact step_engine_quiet (.inr hr) (.inl hs)
  case released => exact step_release hr hs

end Sys2Proof.Machine
end
